-- ==== Sys2Proof/Config.lean ====
section
/-!
DEFINITION. Config.lean: the fixed parameters of the AES-256 core (00_scope.md rules R7 and R8).

"None is configurable: the source fixes AES-256" (R7), so every entry is a plain number. The spec leaves no value of the
block open: there is no free value and no implementation-defined constant here. The constant ROMs of R49 are configuration
too; they stand in Machine/Roms.lean.
-/

namespace Sys2Proof.Config

/-- `KeyBytes`, the only accepted master-key length in bytes (R7, R90). -/
abbrev keyBytes : Nat := 32

/-- The round keys of the RoundKeySet (R7): `NumRounds + 1`. -/
abbrev numRoundKeys : Nat := 15

end Sys2Proof.Config
end

