-- ==== Sys2Proof/Syntax.lean ====
section
/-!
DEFINITION. Syntax.lean: the command set, one constructor for each row of 30_encoding.md rule R66 (spec/opcode_table.json).

The operands are those of R65. A round index and a key length are unsigned counts, so they are natural numbers whose field
width WellFormed.lean checks. The two operands of GFMUL are bytes. The block operand of LDS and the key operand of KEYEXP
travel on `DIN` and `KIN`, not in the command word (R72), so they are no part of the syntax.
-/

namespace Sys2Proof

/-- A command of the AES-256 core (R66). -/
inductive Instr where
  /-- KEYEXP, format L: expand the master key on `KIN`, whose claimed length is `l` bytes (R96). -/
  | keyexp (l : Nat)
  /-- RDRK, format K: read round key `k` (R97). -/
  | rdrk (k : Nat)
  /-- LDS, format N: load `S` from `DIN` (R150). -/
  | lds
  /-- RDS, format N: read `S` (R151). -/
  | rds
  /-- RDSTAT, format N: read STATUS (R152). -/
  | rdstat
  /-- GFMUL, format G: multiply two bytes in GF(2^8) (R83). -/
  | gfmul (a b : BitVec 8)
  /-- SUB, format N: SubBytes on `S` (R120). -/
  | sub
  /-- INVSUB, format N: InvSubBytes on `S` (R121). -/
  | invsub
  /-- SHR, format N: ShiftRows on `S` (R122). -/
  | shr
  /-- INVSHR, format N: InvShiftRows on `S` (R123). -/
  | invshr
  /-- MIX, format N: MixColumns on `S` (R124). -/
  | mix
  /-- INVMIX, format N: InvMixColumns on `S` (R125). -/
  | invmix
  /-- ARK, format K: add round key `k` to `S` (R126). -/
  | ark (k : Nat)
  /-- ENC, format N: encrypt `S` (R142). -/
  | enc
  /-- DEC, format N: decrypt `S` (R143). -/
  | dec
deriving DecidableEq, Repr

end Sys2Proof
end

