-- ==== Sys2Proof/WellFormed.lean ====
section
/-!
DEFINITION. WellFormed.lean: the operands of a command fit the fields that carry them (00_scope.md rule R8, 30_encoding.md rule
R65): a round index fits the four bits of `K` and a key length the eight bits of `L`.

Round index 15 and every key length but 32 are well formed: they are legal in format, and the command answers an error
(60_exceptions.md rules R165 and R167).
-/

namespace Sys2Proof

/-- The operands of `i` fit its fields (R65). -/
def Instr.wellFormed (i : Instr) : Bool :=
  match i with
  | .keyexp l => decide (l < 256)
  | .rdrk k => decide (k < 16)
  | .lds => true
  | .rds => true
  | .rdstat => true
  | .gfmul _ _ => true
  | .sub => true
  | .invsub => true
  | .shr => true
  | .invshr => true
  | .mix => true
  | .invmix => true
  | .ark k => decide (k < 16)
  | .enc => true
  | .dec => true

end Sys2Proof
end

