-- ==== Sys2Proof/Decode.lean ====
section
/-!
DEFINITION. Decode.lean: from a command word to a command, and back (30_encoding.md rules R60 to R72).

A command is exactly one 32-bit word that the host presents whole (R45, R72): there is no byte order to settle and no length
to find. The decoder is total. It looks at the opcode byte first and then at the reserved bits of that opcode's format (R67),
and rejects a word by the name of the check it fails.
-/

namespace Sys2Proof

/-- Why a command word is illegal (R69). -/
inductive Illegal where
  /-- The opcode byte is one of the 241 reserved values (R68). -/
  | reservedOpcode
  /-- The opcode is assigned, and a bit that its format reserves is 1 (R70). -/
  | reservedBit
deriving DecidableEq, Repr

/-- What the decoder answers. -/
inductive Decoded where
  | command (i : Instr)
  | illegal (e : Illegal)
deriving DecidableEq, Repr

/-! ## The fields of a command word (R60) -/

/-- `OPC = CMD[7:0]`. -/
def opcField (cmd : BitVec 32) : BitVec 8 := cmd.extractLsb' 0 8

/-- `K = CMD[11:8]`. -/
def kField (cmd : BitVec 32) : BitVec 4 := cmd.extractLsb' 8 4

/-- `A = CMD[23:16]`. -/
def aField (cmd : BitVec 32) : BitVec 8 := cmd.extractLsb' 16 8

/-- `L = CMD[23:16]`, the same bits as `A`. -/
def lField (cmd : BitVec 32) : BitVec 8 := cmd.extractLsb' 16 8

/-- `B = CMD[31:24]`. -/
def bField (cmd : BitVec 32) : BitVec 8 := cmd.extractLsb' 24 8

/-- The bits that format N reserves are zero: `CMD[31:8]` (R61). -/
def reservedClearN (cmd : BitVec 32) : Bool := cmd.extractLsb' 8 24 == 0

/-- The bits that format K reserves are zero: `CMD[31:12]` (R62). -/
def reservedClearK (cmd : BitVec 32) : Bool := cmd.extractLsb' 12 20 == 0

/-- The bits that format G reserves are zero: `CMD[15:8]` (R63). -/
def reservedClearG (cmd : BitVec 32) : Bool := cmd.extractLsb' 8 8 == 0

/-- The bits that format L reserves are zero: `CMD[31:24]` and `CMD[15:8]` (R64). -/
def reservedClearL (cmd : BitVec 32) : Bool := cmd.extractLsb' 24 8 == 0 && cmd.extractLsb' 8 8 == 0

/-- The command, if the reserved bits of its format are zero (R70). -/
def guardReserved (clear : Bool) (i : Instr) : Decoded :=
  if clear then .command i else .illegal .reservedBit

/-- A format N word (R61). -/
def decodeN (cmd : BitVec 32) (i : Instr) : Decoded := guardReserved (reservedClearN cmd) i

/-- A format K word: `k` is `K` zero-extended (R62, R65). -/
def decodeK (cmd : BitVec 32) (i : Nat → Instr) : Decoded := guardReserved (reservedClearK cmd) (i (kField cmd).toNat)

/-- A format G word (R63, R65). -/
def decodeG (cmd : BitVec 32) (i : BitVec 8 → BitVec 8 → Instr) : Decoded :=
  guardReserved (reservedClearG cmd) (i (aField cmd) (bField cmd))

/-- A format L word: `L` is an unsigned byte count (R64, R65). -/
def decodeL (cmd : BitVec 32) (i : Nat → Instr) : Decoded := guardReserved (reservedClearL cmd) (i (lField cmd).toNat)

/-- The decoder (R66, R67). It reads nothing but `CMD`. -/
def decode (cmd : BitVec 32) : Decoded :=
  match (opcField cmd).toNat with
  | 0x01 => decodeL cmd .keyexp
  | 0x02 => decodeK cmd .rdrk
  | 0x10 => decodeN cmd .lds
  | 0x11 => decodeN cmd .rds
  | 0x12 => decodeN cmd .rdstat
  | 0x20 => decodeG cmd .gfmul
  | 0x30 => decodeN cmd .sub
  | 0x31 => decodeN cmd .invsub
  | 0x32 => decodeN cmd .shr
  | 0x33 => decodeN cmd .invshr
  | 0x34 => decodeN cmd .mix
  | 0x35 => decodeN cmd .invmix
  | 0x36 => decodeK cmd .ark
  | 0x40 => decodeN cmd .enc
  | 0x41 => decodeN cmd .dec
  | _ => .illegal .reservedOpcode

/-! ## The opcode map as data -/

/-- One row of the opcode map: a word selects it when `(CMD & mask) == match` (R66). -/
structure OpcodeRow where
  mnemonic : String
  matchBits : BitVec 32
  mask : BitVec 32
deriving DecidableEq, Repr

/-- The word selects the row (R66). -/
def OpcodeRow.selects (row : OpcodeRow) (cmd : BitVec 32) : Bool := cmd &&& row.mask == row.matchBits

/-- The fifteen rows of R66. -/
def opcodeMap : List OpcodeRow :=
  [⟨"KEYEXP", 0x00000001, 0xFF00FFFF⟩,
   ⟨"RDRK", 0x00000002, 0xFFFFF0FF⟩,
   ⟨"LDS", 0x00000010, 0xFFFFFFFF⟩,
   ⟨"RDS", 0x00000011, 0xFFFFFFFF⟩,
   ⟨"RDSTAT", 0x00000012, 0xFFFFFFFF⟩,
   ⟨"GFMUL", 0x00000020, 0x0000FFFF⟩,
   ⟨"SUB", 0x00000030, 0xFFFFFFFF⟩,
   ⟨"INVSUB", 0x00000031, 0xFFFFFFFF⟩] ++
  [⟨"SHR", 0x00000032, 0xFFFFFFFF⟩,
   ⟨"INVSHR", 0x00000033, 0xFFFFFFFF⟩,
   ⟨"MIX", 0x00000034, 0xFFFFFFFF⟩,
   ⟨"INVMIX", 0x00000035, 0xFFFFFFFF⟩,
   ⟨"ARK", 0x00000036, 0xFFFFF0FF⟩,
   ⟨"ENC", 0x00000040, 0xFFFFFFFF⟩,
   ⟨"DEC", 0x00000041, 0xFFFFFFFF⟩]

/-- The mnemonic of a command, as R66 spells it. -/
def Instr.mnemonic (i : Instr) : String :=
  match i with
  | .keyexp _ => "KEYEXP"
  | .rdrk _ => "RDRK"
  | .lds => "LDS"
  | .rds => "RDS"
  | .rdstat => "RDSTAT"
  | .gfmul _ _ => "GFMUL"
  | .sub => "SUB"
  | .invsub => "INVSUB"
  | .shr => "SHR"
  | .invshr => "INVSHR"
  | .mix => "MIX"
  | .invmix => "INVMIX"
  | .ark _ => "ARK"
  | .enc => "ENC"
  | .dec => "DEC"

/-! ## The encoder -/

/-- Format N, bit 31 first: 24 zeros and the opcode (R61). -/
def formatN (opc : BitVec 8) : BitVec 32 := 0#24 ++ opc

/-- Format K, bit 31 first: 20 zeros, `K`, the opcode (R62). -/
def formatK (k : BitVec 4) (opc : BitVec 8) : BitVec 32 := 0#20 ++ k ++ opc

/-- Format G, bit 31 first: `B`, `A`, eight zeros, the opcode (R63). -/
def formatG (b a : BitVec 8) (opc : BitVec 8) : BitVec 32 := b ++ a ++ 0#8 ++ opc

/-- Format L, bit 31 first: eight zeros, `L`, eight zeros, the opcode (R64). -/
def formatL (l : BitVec 8) (opc : BitVec 8) : BitVec 32 := 0#8 ++ l ++ 0#8 ++ opc

/-- The command word of a well-formed command (R66). -/
def encode (i : Instr) : BitVec 32 :=
  match i with
  | .keyexp l => formatL (BitVec.ofNat 8 l) 0x01
  | .rdrk k => formatK (BitVec.ofNat 4 k) 0x02
  | .lds => formatN 0x10
  | .rds => formatN 0x11
  | .rdstat => formatN 0x12
  | .gfmul a b => formatG b a 0x20
  | .sub => formatN 0x30
  | .invsub => formatN 0x31
  | .shr => formatN 0x32
  | .invshr => formatN 0x33
  | .mix => formatN 0x34
  | .invmix => formatN 0x35
  | .ark k => formatK (BitVec.ofNat 4 k) 0x36
  | .enc => formatN 0x40
  | .dec => formatN 0x41

/-- The instruction of the opcode table's word `w`, whose row has `nbits` bits. Every row has 32 bits and a command is one
32-bit word (R72); the bits above `nbits` are zero. -/
def decodeTableWord (nbits w : Nat) : Option Instr :=
  match decode (BitVec.ofNat 32 (w % 2 ^ nbits)) with
  | .command i => some i
  | .illegal _ => none

end Sys2Proof
end

