-- ==== Sys2Proof/Word.lean ====
section
/-!
DEFINITION. Word.lean: the data types of 00_scope.md (rules R9 to R13) and their one arithmetic operation, exclusive-or.

A `Byte` is eight bits. A `Word` is four bytes in order (R11). A `Block` is the 4 by 4 column-major byte matrix of R10, so it
is four columns, each a `Word`: byte `4*c + r` of the block is byte `r` of column `c`. That is also how the round-key file is
grouped: word `4*k + c` is column `c` of round key `k` (R22).
-/

namespace Sys2Proof

/-- A byte, bit 0 least significant (R9). -/
abbrev Byte := BitVec 8

/-- Four bytes in order, `b0` first (R11). -/
structure Word where
  b0 : Byte
  b1 : Byte
  b2 : Byte
  b3 : Byte
deriving DecidableEq, Repr

namespace Word

/-- The word of four zero bytes. -/
def zero : Word := ⟨0, 0, 0, 0⟩

/-- Byte `w[r]` of a word (R11). -/
def byte (w : Word) (r : Fin 4) : Byte :=
  match r with
  | 0 => w.b0
  | 1 => w.b1
  | 2 => w.b2
  | 3 => w.b3

/-- The word whose byte `r` is `f r`. -/
def ofBytes (f : Fin 4 → Byte) : Word := ⟨f 0, f 1, f 2, f 3⟩

/-- Exclusive-or, byte for byte (R13). -/
def xor (v w : Word) : Word := ofBytes fun r => v.byte r ^^^ w.byte r

end Word

/-- Sixteen bytes as four columns (R10). -/
structure Block where
  c0 : Word
  c1 : Word
  c2 : Word
  c3 : Word
deriving DecidableEq, Repr

namespace Block

/-- The block of sixteen zero bytes. -/
def zero : Block := ⟨Word.zero, Word.zero, Word.zero, Word.zero⟩

/-- Column `c`: bytes `B[4c..4c+3]` (R10). -/
def col (b : Block) (c : Fin 4) : Word :=
  match c with
  | 0 => b.c0
  | 1 => b.c1
  | 2 => b.c2
  | 3 => b.c3

/-- Byte `B[4*c + r]`, the byte at column `c` and row `r` (R10). -/
def byte (b : Block) (c r : Fin 4) : Byte := (b.col c).byte r

/-- The block whose column `c` is `f c`. -/
def ofCols (f : Fin 4 → Word) : Block := ⟨f 0, f 1, f 2, f 3⟩

/-- The block whose byte at column `c` and row `r` is `f c r`. -/
def ofBytes (f : Fin 4 → Fin 4 → Byte) : Block := ofCols fun c => Word.ofBytes (f c)

end Block

/-- A master key: eight words, 32 bytes (00_scope.md rule R7, 20_memory.md rule R42). -/
abbrev Key := Vector Word 8

/-- The round-key file: 60 words (10_state.md rule R22). -/
abbrev RoundKeyFile := Vector Word 60

end Sys2Proof
end

