-- ==== Sys2Proof/Machine/State.lean ====
section
/-!
DEFINITION. Machine/State.lean: the state of the block (10_state.md) and of its interface, as plain data.

The block's own state is the tuple (`S`, `RK`, `KV`, `LAST_ERR`) and nothing else (R33). The spec's step is a function from
(state, `CMD`, `DIN`, `KIN`) to (state', `RESP`, `DOUT`); the step of this package is a function of the state alone. So the
inputs and outputs of R32 stand beside the tuple: the host's stream of commands and resets still to come, the request that is
on the buses, and the responses returned so far. These three are the model's fields (notes/assumptions/1.md).
-/

namespace Sys2Proof.Machine

/-- A response code (60_exceptions.md rule R160). -/
inductive ErrCode where
  /-- The command completed. -/
  | eNone
  /-- KEYEXP with a key length other than 32 (R165). -/
  | eKeyLen
  /-- A command that reads `RK` while `KV = 0` (R166). -/
  | eNoKey
  /-- A command word that selects no row of the opcode map (R164). -/
  | eIllegal
  /-- Round index 15 (R167). -/
  | eIndex
deriving DecidableEq, Repr

/-- What the host drives for one command (10_state.md rule R32, 30_encoding.md rule R60). -/
structure Request where
  /-- `CMD`, the command word. -/
  cmd : BitVec 32
  /-- `DIN`, the data-in bus. -/
  din : BitVec 128
  /-- `KIN`, the key-in bus. -/
  kin : BitVec 256
deriving DecidableEq, Repr

/-- What the block returns for one command (10_state.md rule R32). -/
structure Response where
  /-- `RESP`, the response code. -/
  resp : BitVec 4
  /-- `DOUT`, the data-out bus. -/
  dout : BitVec 128
deriving DecidableEq, Repr

/-- One thing the host does to the block: "a run is a finite sequence of host commands (and resets)"
(70_reset_and_hazards.md rule R187). -/
inductive HostAction where
  /-- The host issues a command. -/
  | command (rq : Request)
  /-- Reset arrives between two commands (R181). -/
  | reset
  /-- Reset arrives while the command `rq` is in progress, and the command is abandoned (R181). -/
  | resetDuring (rq : Request)
deriving DecidableEq, Repr

/-- The state: the block's architectural tuple of R33, and its interface. -/
structure State where
  /-- `S`, the state register (R20). -/
  S : Block
  /-- `RK`, the round-key file (R22). -/
  RK : RoundKeyFile
  /-- `KV`, the key-valid flag (R25). -/
  KV : Bool
  /-- `LAST_ERR`, the last error code (R26). -/
  LAST_ERR : BitVec 4
  /-- The request on the input buses: the command being performed, or the last one performed (R32). -/
  bus : Request
  /-- The host's actions still to come, the next one first (R50). -/
  pending : List HostAction
  /-- The responses returned so far, oldest first (R187). -/
  responses : List Response
deriving DecidableEq, Repr

/-- Input buses with nothing driven on them. -/
def Request.idle : Request := ⟨0, 0, 0⟩

/-- The block right after reset (70_reset_and_hazards.md rule R180), with no host action to come and none answered. -/
def State.reset : State :=
  { S := Block.zero
    RK := Vector.replicate 60 Word.zero
    KV := false
    LAST_ERR := 0
    bus := Request.idle
    pending := []
    responses := [] }

/-- What the block finds when it looks for its next command. -/
inductive Fetched where
  /-- The host presents nothing. -/
  | idle
  /-- The host resets the block; the state is the one the reset finds. -/
  | reset (s : State)
  /-- The host presents the command word `cmd`; the state is the one the command starts from. -/
  | command (cmd : BitVec 32) (s : State)
deriving DecidableEq, Repr

/-- Faults: there are none, and no constructor. Every command completes in one step, and an error is a response and not a
stop (60_exceptions.md rule R170, 93_implementation_defined.md V14). Nothing raises a fault, so this is safe and exact. -/
inductive Fault where
deriving DecidableEq, Repr

/-- Refusals: only the rejection by name of an instruction that has no meaning in the model. -/
inductive Refusal where
  /-- Raised by an arm of `exec` whose instruction has no meaning yet; no arm is of that kind. Safe: the run stops. -/
  | notModelled (mnemonic : String)
deriving DecidableEq, Repr

/-- The outcome of a step of this machine. -/
abbrev Outcome := Host.Outcome State Fault Refusal

end Sys2Proof.Machine
end

