-- ==== Sys2Proof/Machine/Flags.lean ====
section
/-!
DEFINITION. Machine/Flags.lean: the response codes as numbers, and the status view (60_exceptions.md rule R160, 10_state.md
rules R25 to R27). The flags are `KV` and `LAST_ERR`; the block computes no arithmetic flag (R13).
-/

namespace Sys2Proof.Machine

/-- The code's four bits in `RESP` and `LAST_ERR` (R160). -/
def ErrCode.bits (e : ErrCode) : BitVec 4 :=
  match e with
  | .eNone => 0
  | .eKeyLen => 1
  | .eNoKey => 2
  | .eIllegal => 3
  | .eIndex => 4

/-- `KV` as the bit STATUS shows. -/
def kvBit (kv : Bool) : BitVec 1 := if kv then 1 else 0

/-- `STATUS`: `LAST_ERR` in bits 7 to 4, zeros in bits 3 to 1, `KV` in bit 0 (R27, R152). -/
def status (s : State) : Byte := s.LAST_ERR ++ 0#3 ++ kvBit s.KV

end Sys2Proof.Machine
end

