-- ==== Sys2Proof/Machine/Operands.lean ====
section
/-!
DEFINITION. Machine/Operands.lean: how bytes sit on the buses and in the round-key file (20_memory.md rules R41 to R44,
30_encoding.md rule R65, 10_state.md rule R22). Byte order is settled here and nowhere else.
-/

namespace Sys2Proof.Machine

/-- A word as a bit vector, byte 0 most significant (R43). -/
def wordBits (w : Word) : BitVec 32 := w.b0 ++ w.b1 ++ w.b2 ++ w.b3

/-- A block as a bus value: byte `i` is at bits `[127-8i : 120-8i]` (R41). -/
def busOfBlock (b : Block) : BitVec 128 := wordBits b.c0 ++ wordBits b.c1 ++ wordBits b.c2 ++ wordBits b.c3

/-- The block on a 128-bit bus: byte `i = 4*c + r` is at bits `[127-8i : 120-8i]` (R41). -/
def blockOfBus (v : BitVec 128) : Block :=
  Block.ofBytes fun c r => v.extractLsb' (120 - 8 * (4 * c.val + r.val)) 8

/-- Word `j` of the key on `KIN`: its byte `r` is key byte `i = 4*j + r`, at bits `[255-8i : 248-8i]` (R42). -/
def keyWordOfBus (v : BitVec 256) (j : Nat) : Word :=
  Word.ofBytes fun r => v.extractLsb' (248 - 8 * (4 * j + r.val)) 8

/-- The master key on `KIN` (R42). -/
def keyOfBus (v : BitVec 256) : Key :=
  #v[keyWordOfBus v 0, keyWordOfBus v 1, keyWordOfBus v 2, keyWordOfBus v 3,
     keyWordOfBus v 4, keyWordOfBus v 5, keyWordOfBus v 6, keyWordOfBus v 7]

/-- A scalar byte result on `DOUT`: `DOUT[7:0]` is the byte and the rest is zero (R44). -/
def busOfByte (x : Byte) : BitVec 128 := x.setWidth 128

/-- `RKB(k)`: round-key block `k` is words `4k` to `4k+3` of the file, as columns 0 to 3 (R22). -/
def roundKey (rk : RoundKeyFile) (k : Fin 15) : Block :=
  ⟨rk[4 * k.val], rk[4 * k.val + 1], rk[4 * k.val + 2], rk[4 * k.val + 3]⟩

end Sys2Proof.Machine
end

