-- ==== Sys2Proof/Machine/Ops.lean ====
section
/-!
DEFINITION. Machine/Ops.lean: the operations that the commands share: writing each piece of state, responding, raising an
error, checking the key and the round index, and what the host's next action does.

The block has no addressable memory (20_memory.md rule R40), so there is no memory operation here.
-/

namespace Sys2Proof.Machine

/-! ## Writing one piece of state -/

/-- `S <- v`, all sixteen bytes at once (R20, R47). -/
def State.writeS (s : State) (v : Block) : State := { s with S := v }

/-- Write all 60 words of `RK` in one step, and set `KV` (R23, R25). -/
def State.loadRoundKeys (s : State) (rk : RoundKeyFile) : State := { s with RK := rk, KV := true }

/-- `LAST_ERR <- code` (R26). -/
def State.recordCode (s : State) (code : ErrCode) : State := { s with LAST_ERR := code.bits }

/-- `respond(code, d)`: the command completes with `RESP <- code` and `DOUT <- d` (00_scope.md, pseudocode primitives). -/
def State.respond (s : State) (code : ErrCode) (d : BitVec 128) : State :=
  { s with responses := s.responses ++ [⟨code.bits, d⟩] }

/-! ## How a command ends -/

/-- A command that completes: `LAST_ERR <- E_NONE; respond(E_NONE, d)` (60_exceptions.md rule R162). -/
def complete (d : BitVec 128) (s : State) : Outcome := .next ((s.recordCode .eNone).respond .eNone d)

/-- RDSTAT completes without writing `LAST_ERR` (10_state.md rule R26, 44_interface_commands.md rule R152). -/
def completeKeepingLastErr (d : BitVec 128) (s : State) : Outcome := .next (s.respond .eNone d)

/-- `raise Error(code)`, the one way a command fails (60_exceptions.md rule R161): `LAST_ERR <- code`, `RESP = code`,
`DOUT = 0`, and nothing else changes. An error is not a trap: no vector, no saved state, no mode, and no return from it (R170,
R171). -/
def raiseError (code : ErrCode) (s : State) : Outcome := .next ((s.recordCode code).respond code 0)

/-! ## Checks -/

/-- The check on state: E_NOKEY while `KV = 0` (R166). -/
def requireKey (s : State) (body : Outcome) : Outcome := if s.KV then body else raiseError .eNoKey s

/-- The check on a round index, before the check on state (R163): E_INDEX above 14 (R167), then E_NOKEY, then the body on
`RKB(k)`. -/
def requireRoundKey (k : Nat) (s : State) (body : Block → Outcome) : Outcome :=
  if h : k < Config.numRoundKeys then requireKey s (body (roundKey s.RK ⟨k, h⟩)) else raiseError .eIndex s

/-! ## The host's next action -/

/-- The host puts a request on the buses, and its later actions wait (R50, R185). -/
def State.present (s : State) (rq : Request) (rest : List HostAction) : State := { s with bus := rq, pending := rest }

/-- Look at the host's next action, in the host's order (20_memory.md rule R50). -/
def fetch (s : State) : Fetched :=
  match s.pending with
  | [] => .idle
  | .command rq :: rest => .command rq.cmd (s.present rq rest)
  | .reset :: rest => .reset (s.present Request.idle rest)
  | .resetDuring _ :: rest => .reset (s.present Request.idle rest)

/-- With no action of the host, nothing changes: the block has no background activity (70_reset_and_hazards.md rule R187). -/
def idleStep (s : State) : Outcome := .next s

/-- Reset: the block's whole state becomes that of R180. A command that a reset abandons gives no response (R181). What the
host still has to do, and what it was answered before, are not the block's state. -/
def resetStep (s : State) : Outcome :=
  .next { State.reset with bus := s.bus, pending := s.pending, responses := s.responses }

/-- An illegal command word: E_ILLEGAL, whichever check it fails (30_encoding.md rule R69, 60_exceptions.md rule R164). -/
def illegalCommand (_why : Illegal) (s : State) : Outcome := raiseError .eIllegal s

end Sys2Proof.Machine
end

