-- ==== Sys2Proof/Machine/Interface.lean ====
section
/-!
DEFINITION. Machine/Interface.lean: the commands that move the state register and the status across the interface
(44_interface_commands.md).
-/

namespace Sys2Proof.Machine

/-- LDS: `S` from `DIN` (R150). -/
def execLds (s : State) : Outcome := complete 0 (s.writeS (blockOfBus s.bus.din))

/-- RDS: `S` to `DOUT` (R151). -/
def execRds (s : State) : Outcome := complete (busOfBlock s.S) s

/-- RDSTAT: STATUS to `DOUT[7:0]`; `LAST_ERR` is not written (R152). -/
def execRdstat (s : State) : Outcome := completeKeepingLastErr (busOfByte (status s)) s

end Sys2Proof.Machine
end

