-- ==== Sys2Proof/Machine/KeySchedule.lean ====
section
/-!
DEFINITION. Machine/KeySchedule.lean: the key schedule, KEYEXP and RDRK (41_key_schedule.md).
-/

namespace Sys2Proof.Machine

/-- `RotWord`: the four bytes rotated left by one position (R92). -/
def rotWord (w : Word) : Word := Word.ofBytes fun r => w.byte (r + 1)

/-- `SubWord`: the forward S-box on each byte (R93). -/
def subWord (w : Word) : Word := Word.ofBytes fun r => sbox (w.byte r)

/-- The round-constant word `RCON[j] ‖ 0x00 ‖ 0x00 ‖ 0x00` (R94). -/
def rconWord (j : Nat) : Word := ⟨rcon j, 0, 0, 0⟩

/-- What word `i - 1` becomes before it is added to word `i - 8` (R94). -/
def scheduleTemp (i : Nat) (temp : Word) : Word :=
  if i % 8 = 0 then (subWord (rotWord temp)).xor (rconWord (i / 8 - 1))
  else if i % 8 = 4 then subWord temp
  else temp

/-- Word `i` of the expanded key from the words before it, where `i` is how many there are (R94). At least eight words are
there, so the defaults are never read. -/
def nextWord (ws : List Word) : Word :=
  (ws.getD (ws.length - 8) Word.zero).xor (scheduleTemp ws.length (ws.getD (ws.length - 1) Word.zero))

/-- `n` more words of the expanded key (R94). -/
def extendWords (n : Nat) (ws : List Word) : List Word :=
  match n with
  | 0 => ws
  | n + 1 => extendWords n (ws ++ [nextWord ws])

/-- `n` more words make the list longer by `n`. -/
theorem extendWords_length (n : Nat) (ws : List Word) : (extendWords n ws).length = ws.length + n := by
  induction n generalizing ws with
  | zero => rfl
  | succ n ih => rw [extendWords, ih]; simp; omega

/-- The words of the expanded key: the eight words of the master key and 52 more (R94). -/
def expandWords (key : Key) : List Word := extendWords 52 key.toList

/-- The expanded key has 60 words (R94). -/
theorem expandWords_length (key : Key) : (expandWords key).length = 60 := by
  simp [expandWords, extendWords_length]

/-- `ExpandKey` (R94): `RK[i] = w[i]` for `i` in 0..59 (R95). -/
def expandKey (key : Key) : RoundKeyFile := ⟨(expandWords key).toArray, expandWords_length key⟩

/-- KEYEXP: E_KEYLEN unless `L = 32`, else load all 60 words and set `KV` (R96). It does not look at the old `KV` (R163). -/
def execKeyexp (l : Nat) (s : State) : Outcome :=
  if l = Config.keyBytes then complete 0 (s.loadRoundKeys (expandKey (keyOfBus s.bus.kin))) else raiseError .eKeyLen s

/-- RDRK: E_INDEX when `k = 15`, else E_NOKEY when `KV = 0`, else `RKB(k)` on `DOUT` (R97). -/
def execRdrk (k : Nat) (s : State) : Outcome := requireRoundKey k s fun t => complete (busOfBlock t) s

end Sys2Proof.Machine
end

