-- ==== Sys2Proof/Machine/GfMultiply.lean ====
section
/-!
DEFINITION. Machine/GfMultiply.lean: the GF(2^8) multiplier and GFMUL (40_gf_multiply.md).
-/

namespace Sys2Proof.Machine

/-- One pass of the shift step: shift left by one, drop the bit shifted out of the top, and if it was set exclusive-or the
reduction constant 0x1B (R80, R82). -/
def xtime (a : Byte) : Byte := if a.getLsbD 7 then (a <<< 1) ^^^ 0x1b else a <<< 1

/-- `n` passes of the loop of R80 from the accumulator `p`. -/
def gfMulLoop (n : Nat) (p a b : Byte) : Byte :=
  match n with
  | 0 => p
  | n + 1 => gfMulLoop n (if b.getLsbD 0 then p ^^^ a else p) (xtime a) (b >>> 1)

/-- `GFMul(a, b)`: eight passes from a zero accumulator (R80). -/
def gfMul (a b : Byte) : Byte := gfMulLoop 8 0 a b

/-- GFMUL: the product of two operand bytes, in `DOUT[7:0]` (R83). -/
def execGfmul (a b : Byte) (s : State) : Outcome := complete (busOfByte (gfMul a b)) s

end Sys2Proof.Machine
end

