-- ==== Sys2Proof/Machine/RoundTransforms.lean ====
section
/-!
DEFINITION. Machine/RoundTransforms.lean: the four round transformations and their inverses, as functions on a block and as
the commands that apply them to `S` (42_round_transforms.md).

Addition on `Fin 4` is addition modulo 4, which is the rotation of columns that R115 and R116 write.
-/

namespace Sys2Proof.Machine

/-- `SubBytes` (R113). -/
def subBytes (b : Block) : Block := Block.ofBytes fun c r => sbox (b.byte c r)

/-- `InvSubBytes` (R114). -/
def invSubBytes (b : Block) : Block := Block.ofBytes fun c r => invSbox (b.byte c r)

/-- `ShiftRows`: the byte at column `(c + r) mod 4` moves to column `c` (R115). -/
def shiftRows (b : Block) : Block := Block.ofBytes fun c r => b.byte (c + r) r

/-- `InvShiftRows`: the byte at column `(c - r) mod 4` moves to column `c` (R116). -/
def invShiftRows (b : Block) : Block := Block.ofBytes fun c r => b.byte (c - r) r

/-- A column left-multiplied by a 4 by 4 matrix over GF(2^8), each output byte from the whole input column (R117). -/
def matrixColumn (m : Fin 4 → Fin 4 → Byte) (w : Word) : Word :=
  Word.ofBytes fun r =>
    gfMul (m r 0) (w.byte 0) ^^^ gfMul (m r 1) (w.byte 1) ^^^ gfMul (m r 2) (w.byte 2) ^^^ gfMul (m r 3) (w.byte 3)

/-- `MixColumns` (R117). -/
def mixColumns (b : Block) : Block := Block.ofCols fun c => matrixColumn mixMatrix (b.col c)

/-- `InvMixColumns` (R118). -/
def invMixColumns (b : Block) : Block := Block.ofCols fun c => matrixColumn invMixMatrix (b.col c)

/-- `AddRoundKey` (R119). -/
def addRoundKey (b t : Block) : Block := Block.ofBytes fun c r => b.byte c r ^^^ t.byte c r

/-- SUB (R120). -/
def execSub (s : State) : Outcome := complete 0 (s.writeS (subBytes s.S))

/-- INVSUB (R121). -/
def execInvsub (s : State) : Outcome := complete 0 (s.writeS (invSubBytes s.S))

/-- SHR (R122). -/
def execShr (s : State) : Outcome := complete 0 (s.writeS (shiftRows s.S))

/-- INVSHR (R123). -/
def execInvshr (s : State) : Outcome := complete 0 (s.writeS (invShiftRows s.S))

/-- MIX (R124). -/
def execMix (s : State) : Outcome := complete 0 (s.writeS (mixColumns s.S))

/-- INVMIX (R125). -/
def execInvmix (s : State) : Outcome := complete 0 (s.writeS (invMixColumns s.S))

/-- ARK: E_INDEX when `k = 15`, else E_NOKEY when `KV = 0`, else `S <- AddRoundKey(S, RKB(k))` (R126). -/
def execArk (k : Nat) (s : State) : Outcome :=
  requireRoundKey k s fun t => complete 0 (s.writeS (addRoundKey s.S t))

end Sys2Proof.Machine
end

