-- ==== Sys2Proof/Machine/Pipelines.lean ====
section
/-!
DEFINITION. Machine/Pipelines.lean: the forward and inverse round pipelines, ENC and DEC (43_pipelines.md).
-/

namespace Sys2Proof.Machine

/-- The full rounds 1 to 13 (R140; 90_conflicts.md C4 settles the bounds). -/
def fullRounds : List (Fin 15) := [1, 2, 3, 4, 5, 6, 7, 8, 9, 10, 11, 12, 13]

/-- One full forward round with the round key `t` (R140). -/
def forwardRound (b t : Block) : Block := addRoundKey (mixColumns (shiftRows (subBytes b))) t

/-- The final forward round: no MixColumns (R140). -/
def finalRound (b t : Block) : Block := addRoundKey (shiftRows (subBytes b)) t

/-- `Cipher(P, RK)` (R140). -/
def cipher (p : Block) (rk : RoundKeyFile) : Block :=
  finalRound (fullRounds.foldl (fun st i => forwardRound st (roundKey rk i)) (addRoundKey p (roundKey rk 0)))
    (roundKey rk 14)

/-- One full inverse round with the round key `t`: AddRoundKey stands before InvMixColumns (R141). -/
def inverseRound (b t : Block) : Block := invMixColumns (addRoundKey (invSubBytes (invShiftRows b)) t)

/-- The final inverse round: no InvMixColumns (R141). -/
def finalInverseRound (b t : Block) : Block := addRoundKey (invSubBytes (invShiftRows b)) t

/-- `InvCipher(C, RK)`: the same rounds in descending order (R141). -/
def invCipher (c : Block) (rk : RoundKeyFile) : Block :=
  finalInverseRound
    (fullRounds.reverse.foldl (fun st i => inverseRound st (roundKey rk i)) (addRoundKey c (roundKey rk 14)))
    (roundKey rk 0)

/-- ENC: E_NOKEY when `KV = 0`, else `S <- Cipher(S, RK)` as one step (R142). -/
def execEnc (s : State) : Outcome := requireKey s (complete 0 (s.writeS (cipher s.S s.RK)))

/-- DEC: E_NOKEY when `KV = 0`, else `S <- InvCipher(S, RK)` as one step, for every value of `S` (R143). -/
def execDec (s : State) : Outcome := requireKey s (complete 0 (s.writeS (invCipher s.S s.RK)))

end Sys2Proof.Machine
end

