-- ==== Sys2Proof/Machine/Dispatch.lean ====
section
/-!
DEFINITION. Machine/Dispatch.lean: one arm for each command of 30_encoding.md rule R66.
-/

namespace Sys2Proof.Machine

/-- The meaning of a decoded command. -/
def exec (i : Instr) (s : State) : Host.Outcome State Fault Refusal :=
  match i with
  | .keyexp l => Sys2Proof.Machine.execKeyexp l s
  | .rdrk k => Sys2Proof.Machine.execRdrk k s
  | .lds => Sys2Proof.Machine.execLds s
  | .rds => Sys2Proof.Machine.execRds s
  | .rdstat => Sys2Proof.Machine.execRdstat s
  | .gfmul a b => Sys2Proof.Machine.execGfmul a b s
  | .sub => Sys2Proof.Machine.execSub s
  | .invsub => Sys2Proof.Machine.execInvsub s
  | .shr => Sys2Proof.Machine.execShr s
  | .invshr => Sys2Proof.Machine.execInvshr s
  | .mix => Sys2Proof.Machine.execMix s
  | .invmix => Sys2Proof.Machine.execInvmix s
  | .ark k => Sys2Proof.Machine.execArk k s
  | .enc => Sys2Proof.Machine.execEnc s
  | .dec => Sys2Proof.Machine.execDec s

end Sys2Proof.Machine
end

