-- ==== Sys2Proof/Machine/Step.lean ====
section
/-!
DEFINITION. Machine/Step.lean: one step: the block takes the host's next action (20_memory.md rule R50) and completes it whole
(10_state.md rule R31).
-/

namespace Sys2Proof.Machine

/-- One atomic step (R31, R50, R181). -/
def step (s : State) : Host.Outcome State Fault Refusal :=
  match fetch s with
  | .idle => idleStep s
  | .reset t => resetStep t
  | .command cmd t =>
    match decode cmd with
    | .command i => exec i t
    | .illegal why => illegalCommand why t

/-- The state in which the host presents the opcode table's word `w` next, before what it had still to do. Its `DIN` and `KIN`
are 0, as for `.cmd` (30_encoding.md rule R73). -/
def State.withFetchWord (s : State) (nbits w : Nat) : State :=
  { s with pending := .command ⟨BitVec.ofNat 32 (w % 2 ^ nbits), 0, 0⟩ :: s.pending }

end Sys2Proof.Machine
end

