-- ==== Sys2Proof/Machine/Asm.lean ====
section
/-!
DEFINITION. Machine/Asm.lean: the assembler syntax and the pseudo-instructions (30_encoding.md rules R73 and R74).

It is notation for what a host issues: it turns lines of text into requests, which reach the block as `HostAction.command`.
Nothing in the step depends on it.
-/

namespace Sys2Proof.Machine

/-- One assembler line: a command (R73), a raw word (R73), or a pseudo-instruction (R74). -/
inductive AsmLine where
  /-- `KEYEXP L, KEY`. -/
  | keyexp (l : Nat) (key : BitVec 256)
  /-- `LDS BLOCK`. -/
  | lds (block : BitVec 128)
  /-- A mnemonic that names neither `DIN` nor `KIN`, with its operands. -/
  | plain (i : Instr)
  /-- `.cmd WORD`. -/
  | raw (word : BitVec 32)
  | keyexp256 (key : BitVec 256)
  | finit
  | fround (k : Nat)
  | flast
  | iinit
  | iround (k : Nat)
  | ilast
  | encrypt (block : BitVec 128)
  | decrypt (block : BitVec 128)
deriving DecidableEq, Repr

/-- A command with `DIN` and `KIN` 0, as for every mnemonic that does not name them (R73). -/
def plainRequest (i : Instr) : Request := ⟨encode i, 0, 0⟩

/-- `KEYEXP L, KEY` (R73). -/
def keyexpRequest (l : Nat) (key : BitVec 256) : Request := ⟨encode (.keyexp l), 0, key⟩

/-- `LDS BLOCK` (R73). -/
def ldsRequest (block : BitVec 128) : Request := ⟨encode .lds, block, 0⟩

/-- `FINIT` (R74). -/
def finitSeq : List Instr := [.ark 0]

/-- `FROUND k` (R74). -/
def froundSeq (k : Nat) : List Instr := [.sub, .shr, .mix, .ark k]

/-- `FLAST` (R74). -/
def flastSeq : List Instr := [.sub, .shr, .ark 14]

/-- `IINIT` (R74). -/
def iinitSeq : List Instr := [.ark 14]

/-- `IROUND k` (R74). -/
def iroundSeq (k : Nat) : List Instr := [.invshr, .invsub, .ark k, .invmix]

/-- `ILAST` (R74). -/
def ilastSeq : List Instr := [.invshr, .invsub, .ark 0]

/-- The requests that a line stands for, in order (R73, R74). -/
def AsmLine.requests (line : AsmLine) : List Request :=
  match line with
  | .keyexp l key => [keyexpRequest l key]
  | .lds block => [ldsRequest block]
  | .plain i => [plainRequest i]
  | .raw word => [⟨word, 0, 0⟩]
  | .keyexp256 key => [keyexpRequest 32 key]
  | .finit => finitSeq.map plainRequest
  | .fround k => (froundSeq k).map plainRequest
  | .flast => flastSeq.map plainRequest
  | .iinit => iinitSeq.map plainRequest
  | .iround k => (iroundSeq k).map plainRequest
  | .ilast => ilastSeq.map plainRequest
  | .encrypt block => [ldsRequest block, plainRequest .enc, plainRequest .rds]
  | .decrypt block => [ldsRequest block, plainRequest .dec, plainRequest .rds]

/-- `FINIT; FROUND 1; …; FROUND 13; FLAST`: the expansion of ENC into single commands (R74, 43_pipelines.md rule R145). -/
def encSequence : List Instr := finitSeq ++ ((List.range 13).flatMap fun n => froundSeq (n + 1)) ++ flastSeq

/-- `IINIT; IROUND 13; …; IROUND 1; ILAST`: the expansion of DEC into single commands (R74, R145). -/
def decSequence : List Instr := iinitSeq ++ ((List.range 13).flatMap fun n => iroundSeq (13 - n)) ++ ilastSeq

/-! ## The text (R73). notes/assumptions/11.md names what R73 leaves open: blanks, and the case of a hex digit. -/

/-- A blank between words. -/
def isBlank (c : Char) : Bool := c == ' ' || c == '\t'

/-- The text without blanks at its ends. -/
def trimBlanks (cs : List Char) : List Char := ((cs.dropWhile isBlank).reverse.dropWhile isBlank).reverse

/-- The pieces of a text between the occurrences of `sep`. -/
def splitAtChar (sep : Char) (cs : List Char) : List (List Char) :=
  match cs with
  | [] => [[]]
  | c :: rest =>
    match splitAtChar sep rest with
    | [] => [[c]]
    | piece :: pieces => if c == sep then [] :: piece :: pieces else (c :: piece) :: pieces

/-- The value of a decimal digit. -/
def decimalDigit (c : Char) : Option Nat := if '0' ≤ c ∧ c ≤ '9' then some (c.toNat - '0'.toNat) else none

/-- The value of a hex digit. -/
def hexDigit (c : Char) : Option Nat :=
  if '0' ≤ c ∧ c ≤ '9' then some (c.toNat - '0'.toNat)
  else if 'a' ≤ c ∧ c ≤ 'f' then some (c.toNat - 'a'.toNat + 10)
  else if 'A' ≤ c ∧ c ≤ 'F' then some (c.toNat - 'A'.toNat + 10)
  else none

/-- The value of a nonempty string of digits. -/
def digitsValue (base : Nat) (digit : Char → Option Nat) (cs : List Char) : Option Nat :=
  if cs.isEmpty then none else cs.foldlM (fun n c => (digit c).map fun d => base * n + d) 0

/-- The digits after `0x`, if the text begins so. -/
def afterHexPrefix (cs : List Char) : Option (List Char) :=
  match cs with
  | '0' :: 'x' :: ds => some ds
  | _ => none

/-- "Numbers are decimal or `0x`-prefixed hex" (R73). -/
def parseNumber (cs : List Char) : Option Nat :=
  match afterHexPrefix cs with
  | some ds => digitsValue 16 hexDigit ds
  | none => digitsValue 10 decimalDigit cs

/-- A number below a bound. -/
def parseBelow (bound : Nat) (cs : List Char) : Option Nat := (parseNumber cs).filter (· < bound)

/-- The key length of KEYEXP: "decimal 0..255" (R73). -/
def parseLength (cs : List Char) : Option Nat := (digitsValue 10 decimalDigit cs).filter (· < 256)

/-- "a `0x` hex value of exactly `n` digits" (R73). -/
def parseHexExactly (n : Nat) (cs : List Char) : Option Nat :=
  ((afterHexPrefix cs).filter fun ds => ds.length == n).bind fun ds => digitsValue 16 hexDigit ds

/-- A block: 32 hex digits, block byte 0 first (R73). -/
def parseBlock (cs : List Char) : Option (BitVec 128) := (parseHexExactly 32 cs).map (BitVec.ofNat 128)

/-- A key: 64 hex digits, key byte 0 first (R73). -/
def parseKey (cs : List Char) : Option (BitVec 256) := (parseHexExactly 64 cs).map (BitVec.ofNat 256)

/-- A full round's number: 1 to 13 (R74). -/
def parseRound (cs : List Char) : Option Nat := (parseBelow 14 cs).filter (1 ≤ ·)

/-- The lines without operands (R73, R74). -/
def bareLines : List (String × AsmLine) :=
  [("RDS", .plain .rds), ("RDSTAT", .plain .rdstat), ("SUB", .plain .sub), ("INVSUB", .plain .invsub),
   ("SHR", .plain .shr), ("INVSHR", .plain .invshr), ("MIX", .plain .mix), ("INVMIX", .plain .invmix),
   ("ENC", .plain .enc), ("DEC", .plain .dec), ("FINIT", .finit), ("FLAST", .flast), ("IINIT", .iinit), ("ILAST", .ilast)]

/-- A line without operands. -/
def parseBare (m : List Char) : Option AsmLine := (bareLines.find? fun p => p.1.toList == m).map (·.2)

/-- A line with one operand (R73, R74). -/
def parseOne (m x : List Char) : Option AsmLine :=
  if m = "RDRK".toList then (parseBelow 16 x).map fun k => .plain (.rdrk k)
  else if m = "ARK".toList then (parseBelow 16 x).map fun k => .plain (.ark k)
  else if m = "LDS".toList then (parseBlock x).map .lds
  else if m = ".cmd".toList then (parseBelow (2 ^ 32) x).map fun w => .raw (BitVec.ofNat 32 w)
  else if m = "KEYEXP256".toList then (parseKey x).map .keyexp256
  else if m = "FROUND".toList then (parseRound x).map .fround
  else if m = "IROUND".toList then (parseRound x).map .iround
  else if m = "ENCRYPT".toList then (parseBlock x).map .encrypt
  else if m = "DECRYPT".toList then (parseBlock x).map .decrypt
  else none

/-- A line with two operands (R73). -/
def parseTwo (m x y : List Char) : Option AsmLine :=
  if m = "KEYEXP".toList then (parseLength x).bind fun l => (parseKey y).map fun key => .keyexp l key
  else if m = "GFMUL".toList then
    (parseBelow 256 x).bind fun a => (parseBelow 256 y).map fun b => .plain (.gfmul (BitVec.ofNat 8 a) (BitVec.ofNat 8 b))
  else none

/-- One line of text: a comment starts at `;` and runs to the end of the line, and a line may be empty (R73). -/
def parseLine (cs : List Char) : Option (List AsmLine) :=
  let body := trimBlanks (cs.takeWhile (· != ';'))
  if body.isEmpty then some []
  else
    let m := body.takeWhile fun c => !isBlank c
    let rest := trimBlanks (body.dropWhile fun c => !isBlank c)
    let line :=
      match if rest.isEmpty then [] else (splitAtChar ',' rest).map trimBlanks with
      | [] => parseBare m
      | [x] => parseOne m x
      | [x, y] => parseTwo m x y
      | _ => none
    line.map fun l => [l]

/-- A text of lines, one command per line, as the requests it stands for (R73). -/
def assemble (text : String) : Option (List Request) :=
  ((splitAtChar '\n' text.toList).mapM parseLine).map fun ls => ls.flatten.flatMap AsmLine.requests

end Sys2Proof.Machine
end

