-- ==== Sys2Proof/Safety.lean ====
section
/-!
DEFINITION. Safety.lean: runs, the machine's invariant, and the words in which claims about a step are made.
-/

namespace Sys2Proof.Machine

/-! ## Runs -/

/-- `n` steps (70_reset_and_hazards.md rule R187). -/
def run (n : Nat) (s : State) : Outcome :=
  match n with
  | 0 => .next s
  | n + 1 =>
    match step s with
    | .next t => run n t
    | .fault f => .fault f
    | .refused r => .refused r

/-- Commands performed one after the other on one state, without the host's stream (20_memory.md rule R50). -/
def execAll (is : List Instr) (s : State) : Outcome :=
  match is with
  | [] => .next s
  | i :: rest =>
    match exec i s with
    | .next t => execAll rest t
    | .fault f => .fault f
    | .refused r => .refused r

/-- The state with requests as the host's commands to come. -/
def State.withCommands (s : State) (rqs : List Request) : State := { s with pending := rqs.map .command }

/-- The states that the block passes through when a host acts on it after reset. -/
inductive Reachable : State → Prop where
  | start (acts : List HostAction) : Reachable { State.reset with pending := acts }
  | step {s t : State} (h : Reachable s) (hs : step s = .next t) : Reachable t

/-- A safe run: the block never stops (93_implementation_defined.md V14). -/
def NeverStops (s : State) : Prop := ∀ n, ∃ t, run n s = .next t

/-! ## The state after a command, field by field -/

/-- `s` after a command that completes with `DOUT = d`: `LAST_ERR` is 0 and the response is added (60_exceptions.md rule
R162). What else the command writes is written in `s` before. -/
def State.afterSuccess (s : State) (d : BitVec 128) : State :=
  { s with LAST_ERR := 0, responses := s.responses ++ [⟨0, d⟩] }

/-- `s` after a command that raises the error `code`: `LAST_ERR` is the code, the response is the code with `DOUT = 0`, and
nothing else changes (R161). -/
def State.afterError (s : State) (code : BitVec 4) : State :=
  { s with LAST_ERR := code, responses := s.responses ++ [⟨code, 0⟩] }

/-- The command word `w` is rejected for a reserved bit, and presenting it is E_ILLEGAL: only `LAST_ERR` changes, whatever is on
the other buses (30_encoding.md rules R69 and R70). -/
def RejectedForReservedBit (w : BitVec 32) : Prop :=
  decode w = .illegal .reservedBit ∧
  ∀ (s : State) (din : BitVec 128) (kin : BitVec 256) (rest : List HostAction), s.pending = .command ⟨w, din, kin⟩ :: rest →
    step s = .next ({ s with bus := ⟨w, din, kin⟩, pending := rest }.afterError 3)

/-- The block whose sixteen bytes are all `x`. -/
def blockFill (x : Byte) : Block := Block.ofBytes fun _ _ => x

/-! ## The invariant -/

/-- What holds of the block whatever the host does. -/
structure Inv (s : State) : Prop where
  /-- `LAST_ERR` holds one of the five codes: 5 to 15 are never recorded (60_exceptions.md rule R160). -/
  lastErr_le : s.LAST_ERR.toNat ≤ 4
  /-- While `KV = 1`, `RK` is the expansion of a 32-byte key (10_state.md rule R25). -/
  keyed : s.KV = true → ∃ key : Key, s.RK = expandKey key
  /-- No response has a reserved code, and a response that reports an error has `DOUT = 0` (R160, R161). -/
  answered : ∀ r ∈ s.responses, r.resp.toNat ≤ 4 ∧ (r.resp ≠ 0 → r.dout = 0)

end Sys2Proof.Machine
end

