-- ==== Sys2Proof/Certificates/Slice0/Obligations.lean ====
section
/-!
DEFINITION. Certificates/Slice0/Obligations.lean: the statements about the AES-256 core, one definition each.

How a state after a command is written: what the command writes stands in a record update, and `afterSuccess d` or `afterError
code` adds the response and `LAST_ERR` (Safety.lean). An equation `exec i s = .next …` so says the result, that the command
completes, and that nothing else changes.
-/

open Sys2Proof Sys2Proof.Machine

/-! ## One statement for each command: its words, its effect and its frame, its errors, and its rule's examples -/

/-- R96 (with R90): the words of format L; `L = 32` loads the whole expansion of the key on `KIN` and sets `KV`; any other
length is E_KEYLEN; nothing else changes. -/
def Obligations.KeyexpCommand : Prop :=
  (∀ l : BitVec 8, decode (0#8 ++ l ++ 0#8 ++ 0x01#8) = .command (.keyexp l.toNat)) ∧
  (∀ w : BitVec 32, w &&& 0xFF = 0x01 → w &&& 0xFF00FF00 ≠ 0 → RejectedForReservedBit w) ∧
  (∀ s : State,
    exec (.keyexp 32) s = .next ({ s with RK := expandKey (keyOfBus s.bus.kin), KV := true }.afterSuccess 0)) ∧
  (∀ (l : BitVec 8) (s : State), l ≠ 32 → exec (.keyexp l.toNat) s = .next (s.afterError 1)) ∧
  (∀ s : State, s.bus.kin = 0x000102030405060708090a0b0c0d0e0f101112131415161718191a1b1c1d1e1f →
    ∃ t, exec (.keyexp 32) s = .next t ∧ t.RK[8] = ⟨0xa5, 0x73, 0xc2, 0x9f⟩ ∧ t.RK[59] = ⟨0x6d, 0x68, 0xde, 0x36⟩)

/-- R97: the words of format K; with a key, `RKB(k)` on `DOUT`; E_INDEX for 15 whatever `KV` is, else E_NOKEY without a key;
`RDRK 0` and `RDRK 1` give the two halves of the master key. -/
def Obligations.RdrkCommand : Prop :=
  (∀ k : BitVec 4, decode (0#20 ++ k ++ 0x02#8) = .command (.rdrk k.toNat)) ∧
  (∀ w : BitVec 32, w &&& 0xFF = 0x02 → w &&& 0xFFFFF000 ≠ 0 → RejectedForReservedBit w) ∧
  (∀ (k : Fin 15) (s : State), s.KV = true →
    ∃ d : BitVec 128, exec (.rdrk k) s = .next (s.afterSuccess d) ∧
      ∀ c r : Fin 4, d.extractLsb' (120 - 8 * (4 * c.val + r.val)) 8 = (s.RK[4 * k.val + c.val]).byte r) ∧
  (∀ (k : Fin 15) (s : State), s.KV = false → exec (.rdrk k) s = .next (s.afterError 2)) ∧
  (∀ s : State, exec (.rdrk 15) s = .next (s.afterError 4)) ∧
  (∀ (v : BitVec 256) (s : State), s.KV = true → s.RK = expandKey (keyOfBus v) →
    exec (.rdrk 0) s = .next (s.afterSuccess (v.extractLsb' 128 128)) ∧
    exec (.rdrk 1) s = .next (s.afterSuccess (v.extractLsb' 0 128))) ∧
  (∀ s : State, s.KV = true →
    s.RK = expandKey (keyOfBus 0x000102030405060708090a0b0c0d0e0f101112131415161718191a1b1c1d1e1f) →
    exec (.rdrk 2) s = .next (s.afterSuccess 0xa573c29fa176c498a97fce93a572c09c))

/-- R150: byte `i` of `S` is `DIN[127-8i : 120-8i]`, and nothing else changes; no key is needed. -/
def Obligations.LdsCommand : Prop :=
  decode 0x00000010 = .command .lds ∧
  (∀ w : BitVec 32, w &&& 0xFF = 0x10 → w &&& 0xFFFFFF00 ≠ 0 → RejectedForReservedBit w) ∧
  (∀ s : State, ∃ b : Block,
    (∀ c r : Fin 4, b.byte c r = s.bus.din.extractLsb' (120 - 8 * (4 * c.val + r.val)) 8) ∧
    exec .lds s = .next ({ s with S := b }.afterSuccess 0)) ∧
  (∀ s : State, s.bus.din = 0x00112233445566778899aabbccddeeff →
    ∃ t, exec .lds s = .next t ∧ t.S.byte 0 0 = 0x00 ∧ t.S.byte 0 1 = 0x11 ∧ t.S.byte 3 3 = 0xff)

/-- R151: `DOUT[127-8i : 120-8i]` is byte `i` of `S`; only `LAST_ERR` is written; no key is needed. -/
def Obligations.RdsCommand : Prop :=
  decode 0x00000011 = .command .rds ∧
  (∀ w : BitVec 32, w &&& 0xFF = 0x11 → w &&& 0xFFFFFF00 ≠ 0 → RejectedForReservedBit w) ∧
  (∀ s : State, ∃ d : BitVec 128,
    (∀ c r : Fin 4, d.extractLsb' (120 - 8 * (4 * c.val + r.val)) 8 = s.S.byte c r) ∧
    exec .rds s = .next (s.afterSuccess d)) ∧
  exec .rds State.reset = .next (State.reset.afterSuccess 0) ∧
  (∀ s : State, s.bus.din = 0x00112233445566778899aabbccddeeff →
    ∃ t u, exec .lds s = .next t ∧ exec .rds t = .next u ∧
      u.responses = t.responses ++ [⟨0, 0x00112233445566778899aabbccddeeff⟩])

/-- R152 (with R27): `DOUT[0]` is `KV`, `DOUT[3:1]` is 0, `DOUT[7:4]` is `LAST_ERR`, the rest is 0; nothing but the response is
written, not even `LAST_ERR`; and the rule's corner cases and example. -/
def Obligations.RdstatCommand : Prop :=
  decode 0x00000012 = .command .rdstat ∧
  (∀ w : BitVec 32, w &&& 0xFF = 0x12 → w &&& 0xFFFFFF00 ≠ 0 → RejectedForReservedBit w) ∧
  (∀ s : State, ∃ d : BitVec 128,
    d.getLsbD 0 = s.KV ∧ d.extractLsb' 1 3 = 0 ∧ d.extractLsb' 4 4 = s.LAST_ERR ∧ d.extractLsb' 8 120 = 0 ∧
    exec .rdstat s = .next { s with responses := s.responses ++ [⟨0, d⟩] } ∧
    execAll [.rdstat, .rdstat] s = .next { s with responses := s.responses ++ [⟨0, d⟩, ⟨0, d⟩] }) ∧
  exec .rdstat State.reset = .next { State.reset with responses := [⟨0, 0x00⟩] } ∧
  (∀ s : State, s.KV = false →
    execAll [.enc, .rdstat] s =
      .next { s with LAST_ERR := 2, responses := s.responses ++ [⟨2, 0⟩, ⟨0, 0x20⟩] }) ∧
  (∀ s : State, ∃ t, execAll [.keyexp 32, .rdstat] s = .next t ∧ t.responses = s.responses ++ [⟨0, 0⟩, ⟨0, 0x01⟩]) ∧
  (∀ s : State, ∃ t, execAll [.keyexp 32, .ark 15, .rdstat] s = .next t ∧
    t.responses = s.responses ++ [⟨0, 0⟩, ⟨4, 0⟩, ⟨0, 0x41⟩])

/-- R83: the words of format G with any two operand bytes; the product in `DOUT[7:0]` and zeros above it; only `LAST_ERR` is
written; and the rule's corner cases and example. -/
def Obligations.GfmulCommand : Prop :=
  (∀ a b : BitVec 8, decode (b ++ a ++ 0#8 ++ 0x20#8) = .command (.gfmul a b)) ∧
  (∀ w : BitVec 32, w &&& 0xFF = 0x20 → w &&& 0x0000FF00 ≠ 0 → RejectedForReservedBit w) ∧
  (∀ (a b : BitVec 8) (s : State), ∃ d : BitVec 128,
    d.extractLsb' 0 8 = gfMul a b ∧ d.extractLsb' 8 120 = 0 ∧ exec (.gfmul a b) s = .next (s.afterSuccess d)) ∧
  (∀ b : BitVec 8, gfMul 0 b = 0 ∧ gfMul b 0 = 0 ∧ gfMul 1 b = b) ∧
  (∀ a b : BitVec 8, gfMul a b = gfMul b a) ∧
  gfMul 0x80 0x02 = 0x1b ∧ gfMul 0xff 0xff = 0x13 ∧ gfMul 0x53 0xca = 0x01 ∧
  decode 0x83570020 = .command (.gfmul 0x57 0x83) ∧
  (∀ s : State, exec (.gfmul 0x57 0x83) s = .next (s.afterSuccess 0xc1))

/-- R120 (with R113): every byte of `S` goes through the forward S-box; only `S` and `LAST_ERR` are written; no key is needed;
and the rule's corner cases and example. -/
def Obligations.SubCommand : Prop :=
  decode 0x00000030 = .command .sub ∧
  (∀ w : BitVec 32, w &&& 0xFF = 0x30 → w &&& 0xFFFFFF00 ≠ 0 → RejectedForReservedBit w) ∧
  (∀ s : State, ∃ b : Block,
    (∀ c r : Fin 4, b.byte c r = sbox (s.S.byte c r)) ∧ exec .sub s = .next ({ s with S := b }.afterSuccess 0)) ∧
  (∀ s : State, s.S = blockFill 0x00 → exec .sub s = .next ({ s with S := blockFill 0x63 }.afterSuccess 0)) ∧
  (∀ s : State, s.S = blockFill 0x52 → exec .sub s = .next ({ s with S := blockFill 0x00 }.afterSuccess 0)) ∧
  (∀ s : State, s.S = blockOfBus 0x00102030405060708090a0b0c0d0e0f0 →
    exec .sub s = .next ({ s with S := blockOfBus 0x63cab7040953d051cd60e0e7ba70e18c }.afterSuccess 0))

/-- R121 (with R114): every byte of `S` goes through the inverse S-box; only `S` and `LAST_ERR` are written; SUB and INVSUB, in
either order, restore `S`; and the rule's corner case and example. -/
def Obligations.InvsubCommand : Prop :=
  decode 0x00000031 = .command .invsub ∧
  (∀ w : BitVec 32, w &&& 0xFF = 0x31 → w &&& 0xFFFFFF00 ≠ 0 → RejectedForReservedBit w) ∧
  (∀ s : State, ∃ b : Block,
    (∀ c r : Fin 4, b.byte c r = invSbox (s.S.byte c r)) ∧ exec .invsub s = .next ({ s with S := b }.afterSuccess 0)) ∧
  (∀ s : State, ∃ t u, execAll [.sub, .invsub] s = .next t ∧ t.S = s.S ∧
    execAll [.invsub, .sub] s = .next u ∧ u.S = s.S) ∧
  (∀ s : State, s.S = blockFill 0x63 → exec .invsub s = .next ({ s with S := blockFill 0x00 }.afterSuccess 0)) ∧
  (∀ s : State, s.S = blockOfBus 0x63cab7040953d051cd60e0e7ba70e18c →
    exec .invsub s = .next ({ s with S := blockOfBus 0x00102030405060708090a0b0c0d0e0f0 }.afterSuccess 0))

/-- R122 (with R115): byte `4c + r` of the new `S` is byte `4((c + r) mod 4) + r` of the old; row 0 never moves; a block of
equal bytes is unchanged; and the rule's example. -/
def Obligations.ShrCommand : Prop :=
  decode 0x00000032 = .command .shr ∧
  (∀ w : BitVec 32, w &&& 0xFF = 0x32 → w &&& 0xFFFFFF00 ≠ 0 → RejectedForReservedBit w) ∧
  (∀ s : State, ∃ b : Block,
    (∀ c c' r : Fin 4, c'.val = (c.val + r.val) % 4 → b.byte c r = s.S.byte c' r) ∧
    exec .shr s = .next ({ s with S := b }.afterSuccess 0)) ∧
  (∀ s : State, ∃ t, exec .shr s = .next t ∧ ∀ c : Fin 4, t.S.byte c 0 = s.S.byte c 0) ∧
  (∀ (x : Byte) (s : State), s.S = blockFill x → exec .shr s = .next (s.afterSuccess 0)) ∧
  (∀ s : State, s.S = blockOfBus 0x000102030405060708090a0b0c0d0e0f →
    exec .shr s = .next ({ s with S := blockOfBus 0x00050a0f04090e03080d02070c01060b }.afterSuccess 0))

/-- R123 (with R116): byte `4c + r` of the new `S` is byte `4((c - r) mod 4) + r` of the old; it undoes SHR; and the rule's
example. -/
def Obligations.InvshrCommand : Prop :=
  decode 0x00000033 = .command .invshr ∧
  (∀ w : BitVec 32, w &&& 0xFF = 0x33 → w &&& 0xFFFFFF00 ≠ 0 → RejectedForReservedBit w) ∧
  (∀ s : State, ∃ b : Block,
    (∀ c c' r : Fin 4, (c'.val + r.val) % 4 = c.val → b.byte c r = s.S.byte c' r) ∧
    exec .invshr s = .next ({ s with S := b }.afterSuccess 0)) ∧
  (∀ s : State, ∃ t, execAll [.shr, .invshr] s = .next t ∧ t.S = s.S) ∧
  (∀ s : State, s.S = blockOfBus 0x000102030405060708090a0b0c0d0e0f →
    exec .invshr s = .next ({ s with S := blockOfBus 0x000d0a0704010e0b0805020f0c090603 }.afterSuccess 0))

/-- R124 (with R117): each byte of the new `S` is its matrix row times its old column; a column of four equal bytes and the
all-zero block are unchanged; and the rule's examples. -/
def Obligations.MixCommand : Prop :=
  decode 0x00000034 = .command .mix ∧
  (∀ w : BitVec 32, w &&& 0xFF = 0x34 → w &&& 0xFFFFFF00 ≠ 0 → RejectedForReservedBit w) ∧
  (∀ s : State, ∃ b : Block,
    (∀ c : Fin 4,
      b.byte c 0 = gfMul 2 (s.S.byte c 0) ^^^ gfMul 3 (s.S.byte c 1) ^^^ gfMul 1 (s.S.byte c 2) ^^^ gfMul 1 (s.S.byte c 3) ∧
      b.byte c 1 = gfMul 1 (s.S.byte c 0) ^^^ gfMul 2 (s.S.byte c 1) ^^^ gfMul 3 (s.S.byte c 2) ^^^ gfMul 1 (s.S.byte c 3) ∧
      b.byte c 2 = gfMul 1 (s.S.byte c 0) ^^^ gfMul 1 (s.S.byte c 1) ^^^ gfMul 2 (s.S.byte c 2) ^^^ gfMul 3 (s.S.byte c 3) ∧
      b.byte c 3 = gfMul 3 (s.S.byte c 0) ^^^ gfMul 1 (s.S.byte c 1) ^^^ gfMul 1 (s.S.byte c 2) ^^^ gfMul 2 (s.S.byte c 3)) ∧
    exec .mix s = .next ({ s with S := b }.afterSuccess 0)) ∧
  (∀ (s : State) (c : Fin 4) (x : Byte), (∀ r, s.S.byte c r = x) →
    ∃ t, exec .mix s = .next t ∧ ∀ r, t.S.byte c r = x) ∧
  (∀ s : State, s.S = blockFill 0 → exec .mix s = .next (s.afterSuccess 0)) ∧
  (∀ (s : State) (c : Fin 4), s.S.col c = ⟨0x01, 0x00, 0x00, 0x00⟩ →
    ∃ t, exec .mix s = .next t ∧ t.S.col c = ⟨0x02, 0x01, 0x01, 0x03⟩) ∧
  (∀ (s : State) (c : Fin 4), s.S.col c = ⟨0xdb, 0x13, 0x53, 0x45⟩ →
    ∃ t, exec .mix s = .next t ∧ t.S.col c = ⟨0x8e, 0x4d, 0xa1, 0xbc⟩) ∧
  (∀ s : State, s.S = blockOfBus 0x6353e08c0960e104cd70b751bacad0e7 →
    exec .mix s = .next ({ s with S := blockOfBus 0x5f72641557f5bc92f7be3b291db9f91a }.afterSuccess 0))

/-- R125 (with R118): each byte of the new `S` is its row of the inverse matrix times its old column; MIX and INVMIX undo each
other; a column of four equal bytes is unchanged; and the rule's examples. -/
def Obligations.InvmixCommand : Prop :=
  decode 0x00000035 = .command .invmix ∧
  (∀ w : BitVec 32, w &&& 0xFF = 0x35 → w &&& 0xFFFFFF00 ≠ 0 → RejectedForReservedBit w) ∧
  (∀ s : State, ∃ b : Block,
    (∀ c : Fin 4,
      b.byte c 0 =
        gfMul 0x0e (s.S.byte c 0) ^^^ gfMul 0x0b (s.S.byte c 1) ^^^ gfMul 0x0d (s.S.byte c 2) ^^^ gfMul 0x09 (s.S.byte c 3) ∧
      b.byte c 1 =
        gfMul 0x09 (s.S.byte c 0) ^^^ gfMul 0x0e (s.S.byte c 1) ^^^ gfMul 0x0b (s.S.byte c 2) ^^^ gfMul 0x0d (s.S.byte c 3) ∧
      b.byte c 2 =
        gfMul 0x0d (s.S.byte c 0) ^^^ gfMul 0x09 (s.S.byte c 1) ^^^ gfMul 0x0e (s.S.byte c 2) ^^^ gfMul 0x0b (s.S.byte c 3) ∧
      b.byte c 3 =
        gfMul 0x0b (s.S.byte c 0) ^^^ gfMul 0x0d (s.S.byte c 1) ^^^ gfMul 0x09 (s.S.byte c 2) ^^^ gfMul 0x0e (s.S.byte c 3)) ∧
    exec .invmix s = .next ({ s with S := b }.afterSuccess 0)) ∧
  (∀ s : State, ∃ t u, execAll [.mix, .invmix] s = .next t ∧ t.S = s.S ∧
    execAll [.invmix, .mix] s = .next u ∧ u.S = s.S) ∧
  (∀ (s : State) (c : Fin 4) (x : Byte), (∀ r, s.S.byte c r = x) →
    ∃ t, exec .invmix s = .next t ∧ ∀ r, t.S.byte c r = x) ∧
  (∀ (s : State) (c : Fin 4), s.S.col c = ⟨0x01, 0x00, 0x00, 0x00⟩ →
    ∃ t, exec .invmix s = .next t ∧ t.S.col c = ⟨0x0e, 0x09, 0x0d, 0x0b⟩) ∧
  (∀ s : State, s.S = blockOfBus 0x5f72641557f5bc92f7be3b291db9f91a →
    exec .invmix s = .next ({ s with S := blockOfBus 0x6353e08c0960e104cd70b751bacad0e7 }.afterSuccess 0))

/-- R126 (with R119): the words of format K; with a key, byte `i` of `S` becomes its exclusive-or with byte `i` of `RKB(k)`;
E_INDEX for 15 whatever `KV` is, else E_NOKEY without a key; ARK twice restores `S`; an all-zero round key leaves `S`; and the
rule's example. -/
def Obligations.ArkCommand : Prop :=
  (∀ k : BitVec 4, decode (0#20 ++ k ++ 0x36#8) = .command (.ark k.toNat)) ∧
  (∀ w : BitVec 32, w &&& 0xFF = 0x36 → w &&& 0xFFFFF000 ≠ 0 → RejectedForReservedBit w) ∧
  (∀ (k : Fin 15) (s : State), s.KV = true → ∃ b : Block,
    (∀ c r : Fin 4, b.byte c r = s.S.byte c r ^^^ (s.RK[4 * k.val + c.val]).byte r) ∧
    exec (.ark k) s = .next ({ s with S := b }.afterSuccess 0)) ∧
  (∀ (k : Fin 15) (s : State), s.KV = false → exec (.ark k) s = .next (s.afterError 2)) ∧
  (∀ s : State, exec (.ark 15) s = .next (s.afterError 4)) ∧
  (∀ (k : Fin 15) (s : State), s.KV = true → ∃ t, execAll [.ark k, .ark k] s = .next t ∧ t.S = s.S) ∧
  (∀ (k : Fin 15) (s : State), s.KV = true → roundKey s.RK k = blockFill 0 → exec (.ark k) s = .next (s.afterSuccess 0)) ∧
  (∀ s : State, s.KV = true →
    s.RK = expandKey (keyOfBus 0x000102030405060708090a0b0c0d0e0f101112131415161718191a1b1c1d1e1f) →
    s.S = blockOfBus 0x00112233445566778899aabbccddeeff →
    exec (.ark 0) s = .next ({ s with S := blockOfBus 0x00102030405060708090a0b0c0d0e0f0 }.afterSuccess 0))

/-- R142: with a key, `S` becomes `Cipher(S, RK)` for every value of `S`, in one step, and nothing else but `LAST_ERR` changes;
E_NOKEY without a key; ENC twice encrypts twice, which is not what one ENC does; and the rule's example. -/
def Obligations.EncCommand : Prop :=
  decode 0x00000040 = .command .enc ∧
  (∀ w : BitVec 32, w &&& 0xFF = 0x40 → w &&& 0xFFFFFF00 ≠ 0 → RejectedForReservedBit w) ∧
  (∀ s : State, s.KV = true → exec .enc s = .next ({ s with S := cipher s.S s.RK }.afterSuccess 0)) ∧
  (∀ s : State, s.KV = false → exec .enc s = .next (s.afterError 2)) ∧
  (∀ s : State, s.KV = true →
    ∃ t, execAll [.enc, .enc] s = .next t ∧ t.S = cipher (cipher s.S s.RK) s.RK) ∧
  (∃ s t u : State, exec .enc s = .next t ∧ exec .enc t = .next u ∧ u.S ≠ t.S) ∧
  (∀ s : State, s.KV = true →
    s.RK = expandKey (keyOfBus 0x000102030405060708090a0b0c0d0e0f101112131415161718191a1b1c1d1e1f) →
    s.S = blockOfBus 0x00112233445566778899aabbccddeeff →
    exec .enc s = .next ({ s with S := blockOfBus 0x8ea2b7ca516745bfeafc49904b496089 }.afterSuccess 0))

/-- R143: with a key, `S` becomes `InvCipher(S, RK)`, the one `X` with `Cipher(X, RK) = S`, for every value of `S`; E_NOKEY
without a key; and the rule's example. -/
def Obligations.DecCommand : Prop :=
  decode 0x00000041 = .command .dec ∧
  (∀ w : BitVec 32, w &&& 0xFF = 0x41 → w &&& 0xFFFFFF00 ≠ 0 → RejectedForReservedBit w) ∧
  (∀ s : State, s.KV = true → exec .dec s = .next ({ s with S := invCipher s.S s.RK }.afterSuccess 0)) ∧
  (∀ s : State, s.KV = true → ∃ t, exec .dec s = .next t ∧ ∀ x, cipher x s.RK = s.S ↔ x = t.S) ∧
  (∀ s : State, s.KV = false → exec .dec s = .next (s.afterError 2)) ∧
  (∀ s : State, s.KV = true →
    s.RK = expandKey (keyOfBus 0x000102030405060708090a0b0c0d0e0f101112131415161718191a1b1c1d1e1f) →
    s.S = blockOfBus 0x8ea2b7ca516745bfeafc49904b496089 →
    exec .dec s = .next ({ s with S := blockOfBus 0x00112233445566778899aabbccddeeff }.afterSuccess 0))

/-! ## Decoding -/

/-- Every well-formed command survives encoding and decoding, with all its operands. -/
def Obligations.DecodeOfEncodeIsTheCommand : Prop :=
  ∀ i : Instr, i.wellFormed = true → decode (encode i) = .command i

/-- Every legal word is the word of exactly the command it decodes to: no bit is ignored. -/
def Obligations.EncodeOfDecodeIsTheWord : Prop :=
  ∀ (w : BitVec 32) (i : Instr), decode w = .command i → encode i = w

/-- Every decoded command is well formed. -/
def Obligations.DecodedCommandIsWellFormed : Prop :=
  ∀ (w : BitVec 32) (i : Instr), decode w = .command i → i.wellFormed = true

/-- R66: the decoder gives the command of the row that the word selects by match and mask, and gives none exactly when the word
selects no row. -/
def Obligations.DecoderFollowsOpcodeMap : Prop :=
  ∀ w : BitVec 32,
    match opcodeMap.find? fun row => row.selects w with
    | some row => ∃ i, decode w = .command i ∧ i.mnemonic = row.mnemonic
    | none => ∃ e, decode w = .illegal e

/-- No word selects two rows of the opcode map: the inference that 30_encoding.md marks as its own in R67 ("So a `CMD` selects
at most one row"). -/
def Obligations.OpcodeRowsDoNotOverlap : Prop :=
  ∀ (w : BitVec 32), ∀ row ∈ opcodeMap, ∀ row' ∈ opcodeMap, row.selects w = true → row'.selects w = true → row = row'

/-- R68: a word is rejected for its opcode exactly when the opcode is one of the 241 reserved values; and the other rejected
words are those of an assigned opcode that select no row. -/
def Obligations.IllegalWordsAreRejectedByName : Prop :=
  (∀ w : BitVec 32, decode w = .illegal .reservedOpcode ↔
    (w &&& 0xFF).toNat ∈ [0x00] ++ List.range' 0x03 13 ++ List.range' 0x13 13 ++ List.range' 0x21 15 ++ List.range' 0x37 9 ++
      List.range' 0x42 190) ∧
  ([0x00] ++ List.range' 0x03 13 ++ List.range' 0x13 13 ++ List.range' 0x21 15 ++ List.range' 0x37 9 ++
      List.range' 0x42 190).length = 241 ∧
  (∀ w : BitVec 32, decode w = .illegal .reservedBit ↔
    (∃ row ∈ opcodeMap, w &&& 0xFF = row.matchBits &&& 0xFF) ∧ ∀ row ∈ opcodeMap, row.selects w = false)

/-- Words of the spec's encodings and examples, one or more of each format, decode to what the spec says. -/
def Obligations.SampleWordsDecode : Prop :=
  decode 0b00000000_00100000_00000000_00000001 = .command (.keyexp 32) ∧
  decode 0b00000000_00000000_00001110_00000010 = .command (.rdrk 14) ∧
  decode 0b00000000_00000000_00001111_00110110 = .command (.ark 15) ∧
  decode 0b10000011_01010111_00000000_00100000 = .command (.gfmul 0x57 0x83) ∧
  decode 0b00000000_00000000_00000000_00110100 = .command .mix ∧
  decode 0x00000130 = .illegal .reservedBit ∧
  decode 0x00011036 = .illegal .reservedBit ∧
  decode 0x00000F37 = .illegal .reservedOpcode ∧
  decode 0x00000000 = .illegal .reservedOpcode

/-! ## The step -/

/-- When the host's next action is a command whose word decodes to `i`, the step is `exec i` at the state with the request on
the buses and that action taken from the host's stream (one command, one step: 20_memory.md, D1; the stream and the buses as
fields of `State` are the model's form, notes/assumptions/1.md and 2.md).

DESIGN CHOICE (notes/assumptions/5.md): the second clause is the model's own and no rule of the spec gives it.
`withFetchWord` presents the word before all that the host had still to do, with DIN = KIN = 0, and the step runs it. -/
def Obligations.StepRunsTheDecodedCommand : Prop :=
  (∀ (s : State) (rq : Request) (rest : List HostAction) (i : Instr),
    s.pending = .command rq :: rest → decode rq.cmd = .command i →
    step s = exec i { s with bus := rq, pending := rest }) ∧
  (∀ (s : State) (w : BitVec 32) (i : Instr), decode w = .command i →
    step (s.withFetchWord 32 w.toNat) = exec i { s with bus := ⟨w, 0, 0⟩ })

/-- R69: a command word that selects no row changes nothing but `LAST_ERR` and answers E_ILLEGAL with `DOUT = 0`. -/
def Obligations.IllegalWordAnswersIllegal : Prop :=
  ∀ (s : State) (rq : Request) (rest : List HostAction), s.pending = .command rq :: rest →
    (∀ row ∈ opcodeMap, row.selects rq.cmd = false) →
    step s = .next ({ s with bus := rq, pending := rest }.afterError 3)

/-- R180 and R181: a reset, between commands or during one, is one step that puts the block in the reset state and answers
nothing. -/
def Obligations.ResetActionResetsTheBlock : Prop :=
  ∀ (s : State) (act : HostAction) (rest : List HostAction), s.pending = act :: rest →
    (act = .reset ∨ ∃ rq, act = .resetDuring rq) →
    ∃ t, step s = .next t ∧
      (∀ c r, t.S.byte c r = 0x00) ∧ (∀ i : Fin 60, t.RK[i] = ⟨0, 0, 0, 0⟩) ∧ t.KV = false ∧ t.LAST_ERR = 0 ∧ status t = 0x00 ∧
      t.responses = s.responses

/-- The step is total (R33) and answers each command exactly once: a command adds one response, and a reset or an idle step adds
none. That an idle step leaves the whole state is the model's reading of R187 (notes/assumptions/3.md), and that the host goes
on after a reset with what it had still to do is the model's reading too (notes/assumptions/4.md). -/
def Obligations.EveryCommandGetsOneResponse : Prop :=
  ∀ s : State,
    match s.pending with
    | [] => step s = .next s
    | .command rq :: rest =>
      ∃ t r, step s = .next t ∧ t.responses = s.responses ++ [r] ∧ t.bus = rq ∧ t.pending = rest
    | _ :: rest => ∃ t, step s = .next t ∧ t.responses = s.responses ∧ t.pending = rest

/-- R163: the code that a command answers, from its word and `KV` alone: E_ILLEGAL, then E_KEYLEN or E_INDEX, then E_NOKEY. -/
def Obligations.ResponseCodeFollowsPrecedence : Prop :=
  ∀ (s : State) (rq : Request) (rest : List HostAction), s.pending = .command rq :: rest →
    ∃ t d, step s = .next t ∧
      t.responses = s.responses ++
        [⟨if ∀ row ∈ opcodeMap, row.selects rq.cmd = false then 3
          else if rq.cmd &&& 0xFF = 0x01 ∧ rq.cmd.extractLsb' 16 8 ≠ 32 then 1
          else if (rq.cmd &&& 0xFF = 0x02 ∨ rq.cmd &&& 0xFF = 0x36) ∧ rq.cmd.extractLsb' 8 4 = 15 then 4
          else if (rq.cmd &&& 0xFF = 0x02 ∨ rq.cmd &&& 0xFF = 0x36 ∨ rq.cmd &&& 0xFF = 0x40 ∨ rq.cmd &&& 0xFF = 0x41) ∧
              s.KV = false then 2
          else 0, d⟩]

/-- R161: a command that answers an error writes the code to `LAST_ERR`, answers `DOUT = 0` and changes nothing else. -/
def Obligations.ErrorChangesOnlyLastErr : Prop :=
  ∀ (s t : State) (rq : Request) (rest : List HostAction) (r : Response), s.pending = .command rq :: rest →
    step s = .next t → t.responses = s.responses ++ [r] → r.resp ≠ 0 →
    t = { s with bus := rq, pending := rest }.afterError r.resp

/-- R26: `LAST_ERR` is the code of the most recent command, but a successful RDSTAT does not write it; it is 0 after reset. -/
def Obligations.LastErrRecordsTheResponse : Prop :=
  (∀ (s : State) (rq : Request) (rest : List HostAction), s.pending = .command rq :: rest →
    ∃ t r, step s = .next t ∧ t.responses = s.responses ++ [r] ∧
      t.LAST_ERR = if rq.cmd = 0x00000012 then s.LAST_ERR else r.resp) ∧
  State.reset.LAST_ERR = 0

/-- R23: only the KEYEXP word with `L = 32` writes `RK`, and it rewrites all 60 words in its one step. -/
def Obligations.OnlyKeyexpWritesRoundKeys : Prop :=
  ∀ (s : State) (rq : Request) (rest : List HostAction), s.pending = .command rq :: rest →
    ∃ t, step s = .next t ∧
      t.RK = if rq.cmd = 0x00200001 then expandKey (keyOfBus rq.kin) else s.RK

/-- `KV` is set by a KEYEXP that completes and by nothing else, and cleared by reset and by nothing else (10_state.md, R25's
first two points). -/
def Obligations.KeyValidIsSetByKeyexpAndClearedByReset : Prop :=
  ∀ (s : State), ∃ t, step s = .next t ∧
    t.KV =
      match s.pending with
      | [] => s.KV
      | .command rq :: _ => if rq.cmd = 0x00200001 then true else s.KV
      | .reset :: _ => false
      | .resetDuring _ :: _ => false

/-- If a command changes `S`, it is LDS, one of the seven round transformations with a legal round index, ENC or DEC, and it
answered no error (10_state.md, R20's lists). -/
def Obligations.StateRegisterWriters : Prop :=
  ∀ (s t : State) (rq : Request) (rest : List HostAction), s.pending = .command rq :: rest →
    step s = .next t → t.S ≠ s.S →
    (rq.cmd ∈ [0x00000010, 0x00000030, 0x00000031, 0x00000032, 0x00000033, 0x00000034, 0x00000035, 0x00000040, 0x00000041] ∨
      (rq.cmd &&& 0xFFFFF0FF = 0x00000036 ∧ rq.cmd.extractLsb' 8 4 ≠ 15)) ∧
    t.responses = s.responses ++ [⟨0, 0⟩] ∧ t.LAST_ERR = 0 ∧ t.RK = s.RK ∧ t.KV = s.KV

/-- Every step keeps the machine's invariant: a legal `LAST_ERR`, a round-key file that is an expanded key whenever `KV = 1`,
and legal responses. -/
def Obligations.EveryStepKeepsTheInvariant : Prop :=
  ∀ s t : State, Inv s → step s = .next t → Inv t

/-- The reset state has the invariant, whatever the host is going to do. -/
def Obligations.ResetStateHasTheInvariant : Prop :=
  ∀ acts : List HostAction, Inv { State.reset with pending := acts }

/-- Every state that the block reaches after reset, whatever the host does, has the invariant, and from it the block never
stops. -/
def Obligations.ReachableStatesAreSafe : Prop :=
  ∀ s : State, Reachable s → Inv s ∧ NeverStops s

/-- While `KV = 0` the contents of `RK` can be told by nothing: two states that differ only in `RK` run alike for any number of
steps, whatever the host does, and once a key is loaded they are equal (10_state.md, R24's last part). -/
def Obligations.RoundKeysAreUnobservableWithoutKey : Prop :=
  ∀ (n : Nat) (s : State) (rk : RoundKeyFile), s.KV = false →
    ∃ t u, run n s = .next t ∧ run n { s with RK := rk } = .next u ∧
      { u with RK := t.RK } = t ∧ (t.KV = true → u.RK = t.RK)

/-- A command's outcome depends on nothing but its inputs and the tuple (`S`, `RK`, `KV`, `LAST_ERR`): not on `DIN` unless it is
LDS, not on `KIN` unless it is KEYEXP with `L = 32`, not on what the buses carried before, and not on earlier responses
(20_memory.md R47, 10_state.md R32). -/
def Obligations.CommandDependsOnlyOnItsInputs : Prop :=
  (∀ (s : State) (cmd : BitVec 32) (din din' : BitVec 128) (kin kin' : BitVec 256) (rest : List HostAction),
    (cmd = 0x00000010 → din = din') → (cmd = 0x00200001 → kin = kin') →
    ∃ t : State, step { s with pending := .command ⟨cmd, din, kin⟩ :: rest } = .next { t with bus := ⟨cmd, din, kin⟩ } ∧
      step { s with pending := .command ⟨cmd, din', kin'⟩ :: rest } = .next { t with bus := ⟨cmd, din', kin'⟩ }) ∧
  (∀ (s : State) (b : Request), s.pending ≠ [] → step { s with bus := b } = step s) ∧
  (∀ (s : State) (earlier : List Response), ∃ t : State, step s = .next t ∧
    step { s with responses := earlier ++ s.responses } = .next { t with responses := earlier ++ t.responses })

/-- A step reflects none of the host's later actions (20_memory.md R50). -/
def Obligations.LaterActionsDoNotMatter : Prop :=
  ∀ (s : State) (act : HostAction) (rest rest' : List HostAction), ∃ t : State,
    step { s with pending := act :: rest } = .next { t with pending := rest } ∧
    step { s with pending := act :: rest' } = .next { t with pending := rest' }

/-- An earlier error changes no later command: `LAST_ERR` is read by RDSTAT alone, so any other command steps to the very same
state whatever `LAST_ERR` was. It is what 60_exceptions.md infers in R171 ("every command behaves as it would have without the
earlier error"). -/
def Obligations.ErrorsAreNotSticky : Prop :=
  ∀ (s : State) (e : BitVec 4) (rq : Request) (rest : List HostAction), s.pending = .command rq :: rest →
    rq.cmd ≠ 0x00000012 → step { s with LAST_ERR := e } = step s

/-- What 20_memory.md infers in R48 ("Reading has no side effect on the data read"): RDS, RDRK and RDSTAT leave `S`, `RK` and
`KV` as they were and answer the same when repeated; RDS and RDRK write `LAST_ERR`, and RDSTAT does not. -/
def Obligations.ReadsLeaveWhatTheyRead : Prop :=
  ∀ (i : Instr) (s : State), (i = .rds ∨ i = .rdstat ∨ ∃ k < 16, i = .rdrk k) →
    ∃ t u r, exec i s = .next t ∧ exec i t = .next u ∧
      t.responses = s.responses ++ [r] ∧ u.responses = s.responses ++ [r, r] ∧
      t.S = s.S ∧ t.RK = s.RK ∧ t.KV = s.KV ∧ t.LAST_ERR = if i = .rdstat then s.LAST_ERR else r.resp

/-- A command sees every effect of the commands before it (the examples of 70_reset_and_hazards.md, R183): `LDS x; ENC` encrypts
`x`; `KEYEXP 32, K1; ENC` uses `K1`; after `KEYEXP 32, K1; KEYEXP 32, K2; ENC` nothing of `K1` is left. -/
def Obligations.EffectsReachTheNextCommand : Prop :=
  (∀ (s : State) (x : BitVec 128), s.KV = true →
    ∃ t, run 2 (s.withCommands [⟨0x00000010, x, 0⟩, ⟨0x00000040, 0, 0⟩]) = .next t ∧ t.S = cipher (blockOfBus x) s.RK) ∧
  (∀ (s : State) (k1 : BitVec 256),
    ∃ t, run 2 (s.withCommands [⟨0x00200001, 0, k1⟩, ⟨0x00000040, 0, 0⟩]) = .next t ∧
      t.S = cipher s.S (expandKey (keyOfBus k1))) ∧
  (∀ (s : State) (k1 k2 : BitVec 256),
    ∃ t, run 3 (s.withCommands [⟨0x00200001, 0, k1⟩, ⟨0x00200001, 0, k2⟩, ⟨0x00000040, 0, 0⟩]) = .next t ∧
      t.S = cipher s.S (expandKey (keyOfBus k2)) ∧ t.RK = expandKey (keyOfBus k2))

/-! ## The multiplier -/

/-- Commutativity, identity and absorption, which R81 requires, and the field laws that it adds from general knowledge ("So it
is also associative and distributes over xor", "Every nonzero byte has a unique inverse"). -/
def Obligations.GfMulFieldLaws : Prop :=
  (∀ a : Byte, gfMul a 1 = a ∧ gfMul a 0 = 0) ∧
  (∀ a b : Byte, gfMul a b = gfMul b a) ∧
  (∀ a b c : Byte, gfMul (gfMul a b) c = gfMul a (gfMul b c)) ∧
  (∀ a b c : Byte, gfMul a (b ^^^ c) = gfMul a b ^^^ gfMul a c) ∧
  (∀ a : Byte, a ≠ 0 → ∃ b, gfMul a b = 1 ∧ ∀ b', gfMul a b' = 1 → b' = b)

/-- What 40_gf_multiply.md infers in R82: multiplication by 2 is one shift step, and by 3 and the factors of the inverse matrix
the exclusive-or of doublings. -/
def Obligations.GfMulByMatrixFactors : Prop :=
  ∀ a : Byte,
    gfMul a 0x02 = (a <<< 1) ^^^ (if a.getLsbD 7 then 0x1B else 0x00) ∧
    gfMul a 0x03 = gfMul a 0x02 ^^^ a ∧
    gfMul a 0x09 = gfMul a 0x08 ^^^ a ∧
    gfMul a 0x0b = gfMul a 0x08 ^^^ gfMul a 0x02 ^^^ a ∧
    gfMul a 0x0d = gfMul a 0x08 ^^^ gfMul a 0x04 ^^^ a ∧
    gfMul a 0x0e = gfMul a 0x08 ^^^ gfMul a 0x04 ^^^ gfMul a 0x02

/-- The loop computes the product of the Rijndael field: bytes embed, one to one, in the polynomials over the two-element field
modulo x^8 + x^4 + x^3 + x + 1, with exclusive-or as the sum, 1 as one, 2 as x, and `gfMul` as the product (40_gf_multiply.md,
R80's first sentence). -/
def Obligations.GfMulIsTheFieldProduct : Prop :=
  ∃ elem : Byte → AdjoinRoot (Polynomial.X ^ 8 + Polynomial.X ^ 4 + Polynomial.X ^ 3 + Polynomial.X + 1 : Polynomial (ZMod 2)),
    Function.Injective elem ∧ elem 1 = 1 ∧ elem 2 = AdjoinRoot.root _ ∧
    (∀ a b, elem (a ^^^ b) = elem a + elem b) ∧
    (∀ a b, elem (gfMul a b) = elem a * elem b)

/-! ## The key schedule -/

/-- R92 and R93: the rotation and the substitution of a word, byte by byte, and their examples. -/
def Obligations.WordRotationAndSubstitution : Prop :=
  (∀ a b c d : Byte, rotWord ⟨a, b, c, d⟩ = ⟨b, c, d, a⟩) ∧
  (∀ a b c d : Byte, subWord ⟨a, b, c, d⟩ = ⟨sbox a, sbox b, sbox c, sbox d⟩) ∧
  rotWord ⟨0x1c, 0x1d, 0x1e, 0x1f⟩ = ⟨0x1d, 0x1e, 0x1f, 0x1c⟩ ∧
  subWord ⟨0x1d, 0x1e, 0x1f, 0x1c⟩ = ⟨0xa4, 0x72, 0xc0, 0x9c⟩

/-- R94: the first eight words are the key's, and word `i` from 8 to 59 is word `i - 8` plus what word `i - 1` becomes. -/
def Obligations.ExpandedKeyRecurrence : Prop :=
  ∀ key : Key,
    (∀ i : Fin 8, (expandKey key)[i.val] = key[i]) ∧
    (∀ i : Nat, ∀ _ : 8 ≤ i, ∀ hi : i < 60,
      let before := (expandKey key)[i - 1]
      (expandKey key)[i] = ((expandKey key)[i - 8]).xor
        (if i % 8 = 0 then
          (subWord (rotWord before)).xor ⟨[0x01, 0x02, 0x04, 0x08, 0x10, 0x20, 0x40].getD (i / 8 - 1) 0, 0x00, 0x00, 0x00⟩
        else if i % 8 = 4 then subWord before
        else before))

/-- Round key `k` is words `4k` to `4k + 3`, word `4k + c` being its column `c` (10_state.md, R22); and the first two round keys
are the master key, as 41_key_schedule.md infers in R95 ("the first two round keys are the master key itself"). -/
def Obligations.RoundKeysAreGroupsOfFourWords : Prop :=
  (∀ (rk : RoundKeyFile) (k : Fin 15) (c r : Fin 4), (roundKey rk k).byte c r = (rk[4 * k.val + c.val]).byte r) ∧
  (∀ (v : BitVec 256) (c r : Fin 4),
    (roundKey (expandKey (keyOfBus v)) 0).byte c r = v.extractLsb' (248 - 8 * (4 * c.val + r.val)) 8 ∧
    (roundKey (expandKey (keyOfBus v)) 1).byte c r = v.extractLsb' (248 - 8 * (16 + 4 * c.val + r.val)) 8)

/-! ## The round transformations and the pipelines -/

/-- The checks of 42_round_transforms.md, R112: the two tables are inverse to each other, hence bijections; the forward one has
no fixed point; and it is the affine map of the field inverse, a construction that R112 takes from general knowledge. -/
def Obligations.SboxTablesAgreeWithTheirChecks : Prop :=
  (∀ x : Byte, invSbox (sbox x) = x ∧ sbox (invSbox x) = x) ∧
  Function.Bijective sbox ∧ Function.Bijective invSbox ∧
  (∀ x : Byte, sbox x ≠ x) ∧
  (∀ x b : Byte, (if x = 0 then b = 0 else gfMul x b = 1) →
    sbox x = b ^^^ b.rotateLeft 1 ^^^ b.rotateLeft 2 ^^^ b.rotateLeft 3 ^^^ b.rotateLeft 4 ^^^ 0x63)

/-- R127: each inverse transformation undoes its forward one and the other way round, AddRoundKey undoes itself, and all are
bijections on blocks. -/
def Obligations.InverseTransformationLaws : Prop :=
  (∀ b : Block, invSubBytes (subBytes b) = b ∧ subBytes (invSubBytes b) = b) ∧
  (∀ b : Block, invShiftRows (shiftRows b) = b ∧ shiftRows (invShiftRows b) = b) ∧
  (∀ b : Block, invMixColumns (mixColumns b) = b ∧ mixColumns (invMixColumns b) = b) ∧
  (∀ b t : Block, addRoundKey (addRoundKey b t) t = b) ∧
  Function.Bijective subBytes ∧ Function.Bijective invSubBytes ∧ Function.Bijective shiftRows ∧
  Function.Bijective invShiftRows ∧ Function.Bijective mixColumns ∧ Function.Bijective invMixColumns ∧
  (∀ t : Block, Function.Bijective fun b => addRoundKey b t)

/-- Four SHRs restore `S`, and INVSHR equals three SHRs: the inferences that 42_round_transforms.md marks as its own in R122
("Four SHRs in a row restore `S`") and R123 ("`INVSHR` equals three `SHR`s"). -/
def Obligations.RowShiftsCompose : Prop :=
  (∀ s : State, ∃ t, execAll [.shr, .shr, .shr, .shr] s = .next t ∧ t.S = s.S) ∧
  (∀ s : State, ∃ t u, exec .invshr s = .next t ∧ execAll [.shr, .shr, .shr] s = .next u ∧ t.S = u.S)

/-- R140 and R141: both pipelines as sequences of states: whitening, thirteen full rounds with round keys in ascending (or
descending) order, and a final round without the column mix. -/
def Obligations.PipelineRounds : Prop :=
  (∀ (p : Block) (rk : RoundKeyFile), ∃ st : Nat → Block,
    st 0 = addRoundKey p (roundKey rk 0) ∧
    (∀ i : Fin 15, 1 ≤ i.val → i.val ≤ 13 →
      st i = addRoundKey (mixColumns (shiftRows (subBytes (st (i.val - 1))))) (roundKey rk i)) ∧
    cipher p rk = addRoundKey (shiftRows (subBytes (st 13))) (roundKey rk 14)) ∧
  (∀ (c : Block) (rk : RoundKeyFile), ∃ st : Nat → Block,
    st 14 = addRoundKey c (roundKey rk 14) ∧
    (∀ i : Fin 15, 1 ≤ i.val → i.val ≤ 13 →
      st i = invMixColumns (addRoundKey (invSubBytes (invShiftRows (st (i.val + 1)))) (roundKey rk i))) ∧
    invCipher c rk = addRoundKey (invSubBytes (invShiftRows (st 1))) (roundKey rk 0))

/-- Decryption undoes encryption (43_pipelines.md, R144), for every block and every round-key file; and what R144 infers from
it: `Cipher` is a bijection, encryption undoes decryption, and with a key loaded `ENC; DEC` and `DEC; ENC` leave `S`. -/
def Obligations.DecryptionUndoesEncryption : Prop :=
  (∀ (b : Block) (rk : RoundKeyFile), invCipher (cipher b rk) rk = b ∧ cipher (invCipher b rk) rk = b) ∧
  (∀ rk : RoundKeyFile, Function.Bijective fun b => cipher b rk) ∧
  (∀ s : State, s.KV = true →
    ∃ t u, execAll [.enc, .dec] s = .next t ∧ t.S = s.S ∧ execAll [.dec, .enc] s = .next u ∧ u.S = s.S)

/-- What 43_pipelines.md infers in R145 ("ENC and DEC equal their primitive sequences when the key is loaded"): with a key, ENC
and DEC have the effect of their 56-command sequences on `S` and `LAST_ERR`; without one, ENC and DEC
change only `LAST_ERR`, and in the sequences every ARK fails with E_NOKEY while the other commands still change `S`. -/
def Obligations.PipelinesEqualPrimitiveSequences : Prop :=
  encSequence.length = 56 ∧ decSequence.length = 56 ∧
  (∀ s : State, s.KV = true →
    ∃ t u, exec .enc s = .next t ∧ execAll encSequence s = .next u ∧ u.S = t.S ∧ u.LAST_ERR = t.LAST_ERR) ∧
  (∀ s : State, s.KV = true →
    ∃ t u, exec .dec s = .next t ∧ execAll decSequence s = .next u ∧ u.S = t.S ∧ u.LAST_ERR = t.LAST_ERR) ∧
  (∀ s : State, s.KV = false →
    exec .enc s = .next (s.afterError 2) ∧ exec .dec s = .next (s.afterError 2) ∧
    (∃ u, execAll encSequence s = .next u ∧
      u.S = shiftRows (subBytes ((List.range 13).foldl (fun b _ => mixColumns (shiftRows (subBytes b))) s.S)) ∧
      u.responses = s.responses ++ encSequence.map fun i => ⟨if i.mnemonic = "ARK" then 2 else 0, 0⟩) ∧
    (∃ u, execAll decSequence s = .next u ∧
      u.S = invSubBytes (invShiftRows ((List.range 13).foldl (fun b _ => invMixColumns (invSubBytes (invShiftRows b))) s.S)) ∧
      u.responses = s.responses ++ decSequence.map fun i => ⟨if i.mnemonic = "ARK" then 2 else 0, 0⟩))

/-- With a key loaded, the host's `ENCRYPT x; DECRYPT y`, where `y` is the block that `ENCRYPT x` answered, answers `x` again,
for every block and in every state of `S` (30_encoding.md R74, 20_memory.md R55, 43_pipelines.md R144). -/
def Obligations.EncryptThenDecryptAnswersTheBlock : Prop :=
  ∀ (s : State) (x : BitVec 128), s.KV = true →
    ∃ y t, run 6 (s.withCommands ((AsmLine.encrypt x).requests ++ (AsmLine.decrypt y).requests)) = .next t ∧
      y = busOfBlock (cipher (blockOfBus x) s.RK) ∧
      t.responses = s.responses ++ [⟨0, 0⟩, ⟨0, 0⟩, ⟨0, y⟩, ⟨0, 0⟩, ⟨0, 0⟩, ⟨0, x⟩] ∧ t.RK = s.RK ∧ t.KV = true

/-- From reset, `KEYEXP 32` and then `ENCRYPT` or `DECRYPT` answer the cipher and the inverse cipher under the key's expansion,
whatever the key and the block (70_reset_and_hazards.md R182). -/
def Obligations.FromResetToCiphertext : Prop :=
  ∀ (key : BitVec 256) (x : BitVec 128),
    (∃ t, run 4 (State.reset.withCommands ((AsmLine.keyexp256 key).requests ++ (AsmLine.encrypt x).requests)) = .next t ∧
      t.responses = [⟨0, 0⟩, ⟨0, 0⟩, ⟨0, 0⟩, ⟨0, busOfBlock (cipher (blockOfBus x) (expandKey (keyOfBus key)))⟩]) ∧
    (∃ t, run 4 (State.reset.withCommands ((AsmLine.keyexp256 key).requests ++ (AsmLine.decrypt x).requests)) = .next t ∧
      t.responses = [⟨0, 0⟩, ⟨0, 0⟩, ⟨0, 0⟩, ⟨0, busOfBlock (invCipher (blockOfBus x) (expandKey (keyOfBus key)))⟩])

/-! ## The buses and the assembler -/

/-- R41: byte `i` of a block is bits `[127-8i : 120-8i]` of its bus value, and blocks and bus values are in one-to-one
correspondence. -/
def Obligations.BlockBusPacking : Prop :=
  (∀ (b : Block) (c r : Fin 4), (busOfBlock b).extractLsb' (120 - 8 * (4 * c.val + r.val)) 8 = b.byte c r) ∧
  (∀ v : BitVec 128, busOfBlock (blockOfBus v) = v) ∧
  (∀ b : Block, blockOfBus (busOfBlock b) = b)

/-- Master-key word `j` is key bytes `4j` to `4j + 3`, key byte `i` is bits `[255-8i : 248-8i]` of `KIN`, and a word's bits are
its bytes with byte 0 on top (20_memory.md R42 and R43). -/
def Obligations.KeyBusPacking : Prop :=
  (∀ (v : BitVec 256) (j : Fin 8) (r : Fin 4),
    ((keyOfBus v)[j]).byte r = v.extractLsb' (248 - 8 * (4 * j.val + r.val)) 8) ∧
  (∀ (v : BitVec 256) (j : Fin 8), wordBits (keyOfBus v)[j] = v.extractLsb' (224 - 32 * j.val) 32) ∧
  (∀ (w : Word) (r : Fin 4), (wordBits w).extractLsb' (24 - 8 * r.val) 8 = w.byte r)

/-- The words that the pseudo-instructions expand to (30_encoding.md, R74's table). -/
def Obligations.PseudoInstructionWords : Prop :=
  (∀ key : BitVec 256, (AsmLine.keyexp256 key).requests = [⟨0x00200001, 0, key⟩]) ∧
  AsmLine.finit.requests = [⟨0x00000036, 0, 0⟩] ∧
  (∀ k : Nat, 1 ≤ k → k ≤ 13 → (AsmLine.fround k).requests =
    [⟨0x00000030, 0, 0⟩, ⟨0x00000032, 0, 0⟩, ⟨0x00000034, 0, 0⟩, ⟨BitVec.ofNat 32 (256 * k + 0x36), 0, 0⟩]) ∧
  AsmLine.flast.requests = [⟨0x00000030, 0, 0⟩, ⟨0x00000032, 0, 0⟩, ⟨0x00000E36, 0, 0⟩] ∧
  AsmLine.iinit.requests = [⟨0x00000E36, 0, 0⟩] ∧
  (∀ k : Nat, 1 ≤ k → k ≤ 13 → (AsmLine.iround k).requests =
    [⟨0x00000033, 0, 0⟩, ⟨0x00000031, 0, 0⟩, ⟨BitVec.ofNat 32 (256 * k + 0x36), 0, 0⟩, ⟨0x00000035, 0, 0⟩]) ∧
  AsmLine.ilast.requests = [⟨0x00000033, 0, 0⟩, ⟨0x00000031, 0, 0⟩, ⟨0x00000036, 0, 0⟩] ∧
  (∀ x : BitVec 128,
    (AsmLine.encrypt x).requests = [⟨0x00000010, x, 0⟩, ⟨0x00000040, 0, 0⟩, ⟨0x00000011, 0, 0⟩] ∧
    (AsmLine.decrypt x).requests = [⟨0x00000010, x, 0⟩, ⟨0x00000041, 0, 0⟩, ⟨0x00000011, 0, 0⟩])
end

