-- ==== Sys2Proof/Laws/Block.lean ====
section
/-!
SUPPORT. Laws/Block.lean: words and blocks are their bytes.
-/

namespace Sys2Proof

@[simp] theorem Word.byte_ofBytes (f : Fin 4 → Byte) (r : Fin 4) : (Word.ofBytes f).byte r = f r := by
  match r with
  | 0 => rfl
  | 1 => rfl
  | 2 => rfl
  | 3 => rfl

/-- Two words with the same bytes are equal (R11). -/
theorem Word.ext_byte {v w : Word} (h : ∀ r, v.byte r = w.byte r) : v = w := by
  cases v; cases w
  have h0 := h 0; have h1 := h 1; have h2 := h 2; have h3 := h 3
  simp only [Word.byte] at h0 h1 h2 h3
  subst h0 h1 h2 h3; rfl

@[simp] theorem Word.ofBytes_byte (w : Word) : Word.ofBytes w.byte = w := rfl

@[simp] theorem Word.byte_xor (v w : Word) (r : Fin 4) : (v.xor w).byte r = v.byte r ^^^ w.byte r := by
  simp [Word.xor]

@[simp] theorem Block.col_ofCols (f : Fin 4 → Word) (c : Fin 4) : (Block.ofCols f).col c = f c := by
  match c with
  | 0 => rfl
  | 1 => rfl
  | 2 => rfl
  | 3 => rfl

@[simp] theorem Block.byte_ofBytes (f : Fin 4 → Fin 4 → Byte) (c r : Fin 4) : (Block.ofBytes f).byte c r = f c r := by
  simp [Block.byte, Block.ofBytes]

@[simp] theorem Block.byte_ofCols (f : Fin 4 → Word) (c r : Fin 4) : (Block.ofCols f).byte c r = (f c).byte r := by
  simp [Block.byte]

/-- Two blocks with the same columns are equal (R10). -/
theorem Block.ext_col {a b : Block} (h : ∀ c, a.col c = b.col c) : a = b := by
  cases a; cases b
  have h0 := h 0; have h1 := h 1; have h2 := h 2; have h3 := h 3
  simp only [Block.col] at h0 h1 h2 h3
  subst h0 h1 h2 h3; rfl

/-- Two blocks with the same sixteen bytes are equal (R10). -/
theorem Block.ext_byte {a b : Block} (h : ∀ c r, a.byte c r = b.byte c r) : a = b :=
  Block.ext_col fun c => Word.ext_byte (h c)

end Sys2Proof
end

