-- ==== Sys2Proof/Laws/Buses.lean ====
section
/-!
SUPPORT. Laws/Buses.lean: words, blocks and keys as bit vectors, bit by bit (20_memory.md rules R41 to R43).
-/

namespace Sys2Proof.Machine

/-- Every bit of a word (R43). -/
theorem getLsbD_wordBits (w : Word) (i : Nat) :
    (wordBits w).getLsbD i =
      if i < 8 then w.b3.getLsbD i
      else if i < 16 then w.b2.getLsbD (i - 8)
      else if i < 24 then w.b1.getLsbD (i - 16)
      else w.b0.getLsbD (i - 24) := by
  change (((w.b0 ++ w.b1 : BitVec (8 + 8)) ++ w.b2 : BitVec (8 + 8 + 8)) ++ w.b3 : BitVec (8 + 8 + 8 + 8)).getLsbD i = _
  simp only [BitVec.getLsbD_append]
  repeat' split
  all_goals first | rfl | omega

/-- Every bit of a block on its bus, by columns (R41). -/
theorem getLsbD_busOfBlock (b : Block) (i : Nat) :
    (busOfBlock b).getLsbD i =
      if i < 32 then (wordBits b.c3).getLsbD i
      else if i < 64 then (wordBits b.c2).getLsbD (i - 32)
      else if i < 96 then (wordBits b.c1).getLsbD (i - 64)
      else (wordBits b.c0).getLsbD (i - 96) := by
  change (((wordBits b.c0 ++ wordBits b.c1 : BitVec (32 + 32)) ++ wordBits b.c2 : BitVec (32 + 32 + 32)) ++ wordBits b.c3 :
    BitVec (32 + 32 + 32 + 32)).getLsbD i = _
  simp only [BitVec.getLsbD_append]
  repeat' split
  all_goals first | rfl | omega

/-- Column `c` of a block on its bus (R41, R43). -/
theorem extractLsb'_busOfBlock (b : Block) (c : Fin 4) :
    (busOfBlock b).extractLsb' (96 - 32 * c.val) 32 = wordBits (b.col c) := by
  apply BitVec.eq_of_getLsbD_eq
  intro i hi
  rw [BitVec.getLsbD_extractLsb', getLsbD_busOfBlock]
  match c with
  | 0 => simp [hi, Block.col, show ¬ 96 + i < 32 by omega, show ¬ 96 + i < 64 by omega]
  | 1 => simp [hi, Block.col, show ¬ 64 + i < 32 by omega, show ¬ 64 + i < 64 by omega, show 64 + i < 96 by omega]
  | 2 => simp [hi, Block.col, show ¬ 32 + i < 32 by omega, show 32 + i < 64 by omega]
  | 3 => simp [hi, Block.col]

/-- Two bus values with the same sixteen bytes are equal. -/
theorem bus_ext {v w : BitVec 128}
    (h : ∀ c r : Fin 4,
      v.extractLsb' (120 - 8 * (4 * c.val + r.val)) 8 = w.extractLsb' (120 - 8 * (4 * c.val + r.val)) 8) : v = w := by
  apply BitVec.eq_of_getLsbD_eq
  intro i hi
  have := congrArg (fun x => x.getLsbD (i % 8)) (h ⟨3 - i / 32, by omega⟩ ⟨3 - i / 8 % 4, by omega⟩)
  simpa only [BitVec.getLsbD_extractLsb', show i % 8 < 8 by omega, decide_true, Bool.true_and,
    show 120 - 8 * (4 * (3 - i / 32) + (3 - i / 8 % 4)) + i % 8 = i by omega] using this

/-- The bytes of the block on a bus (R41). -/
@[simp] theorem byte_blockOfBus (v : BitVec 128) (c r : Fin 4) :
    (blockOfBus v).byte c r = v.extractLsb' (120 - 8 * (4 * c.val + r.val)) 8 := by
  simp [blockOfBus]

/-- The words of the key on `KIN` (R42). -/
theorem getElem_keyOfBus (v : BitVec 256) (j : Fin 8) : (keyOfBus v)[j] = keyWordOfBus v j := by
  match j with
  | 0 => rfl
  | 1 => rfl
  | 2 => rfl
  | 3 => rfl
  | 4 => rfl
  | 5 => rfl
  | 6 => rfl
  | 7 => rfl

end Sys2Proof.Machine
end

