-- ==== Sys2Proof/Laws/Decode.lean ====
section
/-!
SUPPORT. Laws/Decode.lean: the fields of the words that the encoder writes, and the decoder by cases (30_encoding.md rules R60 to
R68).
-/

namespace Sys2Proof

/-- Every bit of a format N word (R61). -/
theorem getLsbD_formatN (o : BitVec 8) (i : Nat) : (formatN o).getLsbD i = (decide (i < 8) && o.getLsbD i) := by
  change (0#24 ++ o : BitVec (24 + 8)).getLsbD i = _
  rw [BitVec.getLsbD_append]
  by_cases h : i < 8 <;> simp [h]

/-- Every bit of a format K word (R62). -/
theorem getLsbD_formatK (k : BitVec 4) (o : BitVec 8) (i : Nat) :
    (formatK k o).getLsbD i = if i < 8 then o.getLsbD i else k.getLsbD (i - 8) := by
  change ((0#20 ++ k : BitVec (20 + 4)) ++ o : BitVec (20 + 4 + 8)).getLsbD i = _
  rw [BitVec.getLsbD_append, BitVec.getLsbD_append]
  by_cases h : i < 8 <;> by_cases h2 : i - 8 < 4 <;> simp [h, h2]
  exact BitVec.getLsbD_of_ge k (i - 8) (by omega)

/-- Every bit of a format G word (R63). -/
theorem getLsbD_formatG (b a o : BitVec 8) (i : Nat) :
    (formatG b a o).getLsbD i =
      if i < 8 then o.getLsbD i
      else if i < 16 then false
      else if i < 24 then a.getLsbD (i - 16)
      else b.getLsbD (i - 24) := by
  change (((b ++ a : BitVec (8 + 8)) ++ 0#8 : BitVec (8 + 8 + 8)) ++ o : BitVec (8 + 8 + 8 + 8)).getLsbD i = _
  rw [BitVec.getLsbD_append, BitVec.getLsbD_append, BitVec.getLsbD_append]
  split
  · rfl
  · by_cases h16 : i < 16
    · simp [h16, show i - 8 < 8 by omega]
    · by_cases h24 : i < 24
      · simp [h16, h24, show ¬ i - 8 < 8 by omega, show i - 8 - 8 = i - 16 by omega, show i - 16 < 8 by omega]
      · simp [h16, h24, show ¬ i - 8 < 8 by omega, show i - 8 - 8 = i - 16 by omega, show ¬ i - 16 < 8 by omega,
          show i - 16 - 8 = i - 24 by omega]

/-- Format L is format G with a zero top byte (R63, R64). -/
theorem formatL_eq_formatG (l o : BitVec 8) : formatL l o = formatG 0 l o := rfl

@[simp] theorem opcField_formatN (o : BitVec 8) : opcField (formatN o) = o := by
  apply BitVec.eq_of_getLsbD_eq
  intro i hi
  simp [opcField, getLsbD_formatN, hi]

@[simp] theorem opcField_formatK (k : BitVec 4) (o : BitVec 8) : opcField (formatK k o) = o := by
  apply BitVec.eq_of_getLsbD_eq
  intro i hi
  simp [opcField, getLsbD_formatK, hi]

@[simp] theorem opcField_formatG (b a : BitVec 8) (o : BitVec 8) : opcField (formatG b a o) = o := by
  apply BitVec.eq_of_getLsbD_eq
  intro i hi
  simp [opcField, getLsbD_formatG, hi]

@[simp] theorem opcField_formatL (l : BitVec 8) (o : BitVec 8) : opcField (formatL l o) = o := by
  apply BitVec.eq_of_getLsbD_eq
  intro i hi
  simp [opcField, formatL_eq_formatG, getLsbD_formatG, hi]

@[simp] theorem kField_formatK (k : BitVec 4) (o : BitVec 8) : kField (formatK k o) = k := by
  apply BitVec.eq_of_getLsbD_eq
  intro i hi
  simp [kField, getLsbD_formatK, hi, show ¬ 8 + i < 8 by omega]

@[simp] theorem aField_formatG (b a : BitVec 8) (o : BitVec 8) : aField (formatG b a o) = a := by
  apply BitVec.eq_of_getLsbD_eq
  intro i hi
  simp [aField, getLsbD_formatG, hi, show ¬ 16 + i < 8 by omega, show ¬ 16 + i < 16 by omega, show 16 + i < 24 by omega]

@[simp] theorem bField_formatG (b a : BitVec 8) (o : BitVec 8) : bField (formatG b a o) = b := by
  apply BitVec.eq_of_getLsbD_eq
  intro i hi
  simp [bField, getLsbD_formatG, hi, show ¬ 24 + i < 8 by omega, show ¬ 24 + i < 16 by omega, show ¬ 24 + i < 24 by omega]

@[simp] theorem lField_formatL (l : BitVec 8) (o : BitVec 8) : lField (formatL l o) = l := by
  apply BitVec.eq_of_getLsbD_eq
  intro i hi
  simp [lField, formatL_eq_formatG, getLsbD_formatG, hi, show ¬ 16 + i < 8 by omega, show ¬ 16 + i < 16 by omega, show 16 + i < 24 by omega]

@[simp] theorem reservedClearN_formatN (o : BitVec 8) : reservedClearN (formatN o) = true := by
  rw [reservedClearN, beq_iff_eq]
  apply BitVec.eq_of_getLsbD_eq
  intro i hi
  simp [getLsbD_formatN, hi]

@[simp] theorem reservedClearK_formatK (k : BitVec 4) (o : BitVec 8) : reservedClearK (formatK k o) = true := by
  rw [reservedClearK, beq_iff_eq]
  apply BitVec.eq_of_getLsbD_eq
  intro i hi
  simp [getLsbD_formatK, hi, show ¬ 12 + i < 8 by omega]
  exact BitVec.getLsbD_of_ge k (12 + i - 8) (by omega)

@[simp] theorem reservedClearG_formatG (b a o : BitVec 8) : reservedClearG (formatG b a o) = true := by
  rw [reservedClearG, beq_iff_eq]
  apply BitVec.eq_of_getLsbD_eq
  intro i hi
  simp [getLsbD_formatG, hi, show 8 + i < 16 by omega]

@[simp] theorem reservedClearL_formatL (l o : BitVec 8) : reservedClearL (formatL l o) = true := by
  rw [reservedClearL, Bool.and_eq_true, beq_iff_eq, beq_iff_eq, formatL_eq_formatG]
  constructor
  all_goals
    apply BitVec.eq_of_getLsbD_eq
    intro i hi
    simp [getLsbD_formatG, hi]
    try omega

/-- A row whose mask and match hold the opcode byte and zeros selects a word when each of its bits does (R66). -/
theorem OpcodeRow.selects_of_bits {row : OpcodeRow} {w : BitVec 32}
    (h : ∀ i < 32, (w.getLsbD i && row.mask.getLsbD i) = row.matchBits.getLsbD i) : row.selects w = true := by
  rw [OpcodeRow.selects, beq_iff_eq]
  apply BitVec.eq_of_getLsbD_eq
  intro i hi
  rw [BitVec.getLsbD_and, h i hi]

/-- The opcode field and the low byte of the word (R60). -/
theorem opcField_eq_iff (w : BitVec 32) (n : Nat) (hn : n < 256) : (opcField w).toNat = n ↔ w &&& 0xFF = BitVec.ofNat 32 n := by
  constructor
  · intro h
    apply BitVec.eq_of_toNat_eq
    simp [opcField] at h
    rw [BitVec.toNat_and]; simp
    rw [show (255 : Nat) = 2^8-1 from rfl, Nat.and_two_pow_sub_one_eq_mod]; omega
  · intro h
    have := congrArg BitVec.toNat h
    rw [BitVec.toNat_and] at this; simp at this
    rw [show (255 : Nat) = 2^8-1 from rfl, Nat.and_two_pow_sub_one_eq_mod] at this
    simp [opcField]; omega

/-- The decoder's answer for each value of the opcode byte (R66, R68). -/
theorem decode_cases (w : BitVec 32) :
  ((opcField w).toNat = 0x01 ∧ decode w = decodeL w .keyexp) ∨ ((opcField w).toNat = 0x02 ∧ decode w = decodeK w .rdrk) ∨
  ((opcField w).toNat = 0x10 ∧ decode w = decodeN w .lds) ∨ ((opcField w).toNat = 0x11 ∧ decode w = decodeN w .rds) ∨
  ((opcField w).toNat = 0x12 ∧ decode w = decodeN w .rdstat) ∨ ((opcField w).toNat = 0x20 ∧ decode w = decodeG w .gfmul) ∨
  ((opcField w).toNat = 0x30 ∧ decode w = decodeN w .sub) ∨ ((opcField w).toNat = 0x31 ∧ decode w = decodeN w .invsub) ∨
  ((opcField w).toNat = 0x32 ∧ decode w = decodeN w .shr) ∨ ((opcField w).toNat = 0x33 ∧ decode w = decodeN w .invshr) ∨
  ((opcField w).toNat = 0x34 ∧ decode w = decodeN w .mix) ∨ ((opcField w).toNat = 0x35 ∧ decode w = decodeN w .invmix) ∨
  ((opcField w).toNat = 0x36 ∧ decode w = decodeK w .ark) ∨ ((opcField w).toNat = 0x40 ∧ decode w = decodeN w .enc) ∨
  ((opcField w).toNat = 0x41 ∧ decode w = decodeN w .dec) ∨
  ((opcField w).toNat ∉
      [0x01, 0x02, 0x10, 0x11, 0x12, 0x20, 0x30, 0x31, 0x32, 0x33, 0x34, 0x35, 0x36, 0x40, 0x41] ∧
    decode w = .illegal .reservedOpcode) := by
  unfold decode
  split <;> simp_all

/-- A word is its opcode in format N exactly when format N's reserved bits are zero (R61). -/
theorem formatN_fields_iff (w : BitVec 32) : formatN (opcField w) = w ↔ reservedClearN w = true := by
  constructor
  · intro h; rw [← h]; simp
  · intro h
    apply BitVec.eq_of_getLsbD_eq; intro i hi
    rw [getLsbD_formatN]
    by_cases h8 : i < 8
    · simp [h8, opcField]
    · rw [reservedClearN, beq_iff_eq] at h
      have := congrArg (fun v => v.getLsbD (i - 8)) h
      simp only [BitVec.getLsbD_extractLsb', show i - 8 < 24 by omega, decide_true, Bool.true_and, show 8 + (i - 8) = i by omega] at this
      simp [h8, this]

/-- A word is its fields in format K exactly when format K's reserved bits are zero (R62). -/
theorem formatK_fields_iff (w : BitVec 32) : formatK (kField w) (opcField w) = w ↔ reservedClearK w = true := by
  constructor
  · intro h; rw [← h]; simp
  · intro h
    apply BitVec.eq_of_getLsbD_eq; intro i hi
    rw [getLsbD_formatK]
    by_cases h8 : i < 8
    · simp [h8, opcField]
    · by_cases h12 : i < 12
      · simp [h8, kField, show i - 8 < 4 by omega]; congr 1; omega
      · rw [reservedClearK, beq_iff_eq] at h
        have := congrArg (fun v => v.getLsbD (i - 12)) h
        simp only [BitVec.getLsbD_extractLsb', show i - 12 < 20 by omega, decide_true, Bool.true_and, show 12 + (i - 12) = i by omega] at this
        rw [if_neg h8, BitVec.getLsbD_of_ge _ _ (by omega), this]; simp

/-- A word is its fields in format G exactly when format G's reserved bits are zero (R63). -/
theorem formatG_fields_iff (w : BitVec 32) : formatG (bField w) (aField w) (opcField w) = w ↔ reservedClearG w = true := by
  constructor
  · intro h; rw [← h]; simp
  · intro h
    apply BitVec.eq_of_getLsbD_eq; intro i hi
    rw [getLsbD_formatG]
    by_cases h8 : i < 8
    · simp [h8, opcField]
    · by_cases h16 : i < 16
      · rw [reservedClearG, beq_iff_eq] at h
        have := congrArg (fun v => v.getLsbD (i - 8)) h
        simp only [BitVec.getLsbD_extractLsb', show i - 8 < 8 by omega, decide_true, Bool.true_and, show 8 + (i - 8) = i by omega] at this
        simp [h8, h16, this]
      · by_cases h24 : i < 24
        · simp [h8, h16, h24, aField, show i - 16 < 8 by omega]; congr 1; omega
        · simp [h8, h16, h24, bField, show i - 24 < 8 by omega]; congr 1; omega

/-- Format L's reserved bits are format G's and the top byte (R63, R64). -/
theorem reservedClearL_iff (w : BitVec 32) : reservedClearL w = true ↔ bField w = 0 ∧ reservedClearG w = true := by
  simp [reservedClearL, bField, reservedClearG]

/-- A word is its fields in format L exactly when format L's reserved bits are zero (R64). -/
theorem formatL_fields_iff (w : BitVec 32) : formatL (lField w) (opcField w) = w ↔ reservedClearL w = true := by
  constructor
  · intro h; rw [← h]; simp
  · intro h
    obtain ⟨h1, h2⟩ := (reservedClearL_iff w).mp h
    rw [formatL_eq_formatG, ← h1]; exact (formatG_fields_iff w).mpr h2

end Sys2Proof
end

