-- ==== Sys2Proof/Laws/GfMultiply.lean ====
section
/-!
SUPPORT. Laws/GfMultiply.lean: the shift step and the loop of the multiplier (40_gf_multiply.md rule R80).
-/

namespace Sys2Proof.Machine

/-- The shift step without a branch on the value. -/
theorem xtime_eq (a : Byte) : xtime a = (a <<< 1) ^^^ (if a.getLsbD 7 then 0x1b else 0) := by
  unfold xtime
  split <;> simp

/-- Four exclusive-ors regrouped. -/
theorem xor_xor_xor_comm (w x y z : Byte) : w ^^^ x ^^^ (y ^^^ z) = w ^^^ y ^^^ (x ^^^ z) := by
  rw [BitVec.xor_assoc, BitVec.xor_assoc, ← BitVec.xor_assoc x, BitVec.xor_comm x y, BitVec.xor_assoc y]

/-- The shift step distributes over exclusive-or. -/
theorem xtime_xor (a b : Byte) : xtime (a ^^^ b) = xtime a ^^^ xtime b := by
  rw [xtime_eq, xtime_eq, xtime_eq, BitVec.shiftLeft_xor_distrib, BitVec.getLsbD_xor, xor_xor_xor_comm]
  cases a.getLsbD 7 <;> cases b.getLsbD 7 <;> simp

/-- The accumulator is added at the end. -/
theorem gfMulLoop_eq (n : Nat) (p a b : Byte) : gfMulLoop n p a b = p ^^^ gfMulLoop n 0 a b := by
  induction n generalizing p a b with
  | zero => simp [gfMulLoop]
  | succ n ih =>
    rw [gfMulLoop, ih]
    conv_rhs => rw [gfMulLoop, ih]
    split <;> simp [BitVec.xor_assoc]

/-- One pass of the loop. -/
theorem gfMulLoop_succ (n : Nat) (a b : Byte) :
    gfMulLoop (n + 1) 0 a b = (if b.getLsbD 0 then a else 0) ^^^ gfMulLoop n 0 (xtime a) (b >>> 1) := by
  rw [gfMulLoop, gfMulLoop_eq]
  split <;> simp

end Sys2Proof.Machine
end

