-- ==== Sys2Proof/Laws/KeySchedule.lean ====
section
/-!
SUPPORT. Laws/KeySchedule.lean: the words of the expanded key (41_key_schedule.md rule R94). Cite these and do not unfold
`expandKey`: unfolding it makes the elaborator run the schedule.
-/

namespace Sys2Proof.Machine

/-- The words of a 60-word file that is given as a list. -/
theorem getElem_fileOfList {ws : List Word} (hw : ws.toArray.size = 60) (i : Nat) (h : i < 60) :
    (⟨ws.toArray, hw⟩ : RoundKeyFile)[i] = ws.getD i Word.zero := by
  have hlen : i < ws.length := by have := hw; simp at this; omega
  simp [hlen]

/-- Word `i` of the expanded key. -/
theorem getElem_expandKey (key : Key) (i : Nat) (h : i < 60) : (expandKey key)[i] = (expandWords key).getD i Word.zero :=
  getElem_fileOfList _ i h

/-- More words leave the words that are there. -/
theorem getD_extendWords_of_lt (n : Nat) (ws : List Word) (i : Nat) (h : i < ws.length) :
    (extendWords n ws).getD i Word.zero = ws.getD i Word.zero := by
  induction n generalizing ws with
  | zero => rfl
  | succ n ih =>
    rw [extendWords, ih _ (by simp; omega)]
    simp [List.getD_eq_getElem?_getD, List.getElem?_append_left h]

/-- The words that are there stay in front. -/
theorem take_extendWords (n : Nat) (ws : List Word) (m : Nat) (h : m ≤ ws.length) : (extendWords n ws).take m = ws.take m := by
  induction n generalizing ws with
  | zero => rfl
  | succ n ih => rw [extendWords, ih _ (by simp; omega), List.take_append_of_le_length h]

/-- A new word is the next word after the words before it. -/
theorem getD_extendWords_of_ge (n : Nat) (ws : List Word) (i : Nat) (h : ws.length ≤ i) (hi : i < ws.length + n) :
    (extendWords n ws).getD i Word.zero = nextWord ((extendWords n ws).take i) := by
  induction n generalizing ws with
  | zero => omega
  | succ n ih =>
    rw [extendWords]
    by_cases heq : i = ws.length
    · subst heq
      rw [getD_extendWords_of_lt _ _ _ (by simp), take_extendWords _ _ _ (by simp)]
      simp
    · exact ih _ (by simp; omega) (by simp; omega)

end Sys2Proof.Machine
end

