-- ==== Sys2Proof/Laws/State.lean ====
section
/-!
SUPPORT. Laws/State.lean: what each update of the state does to each field. All hold by definition.
-/

namespace Sys2Proof.Machine

/-! ## `writeS` -/

@[simp] theorem State.writeS_S (s : State) (v : Block) : (s.writeS v).S = v := rfl
@[simp] theorem State.writeS_RK (s : State) (v : Block) : (s.writeS v).RK = s.RK := rfl
@[simp] theorem State.writeS_KV (s : State) (v : Block) : (s.writeS v).KV = s.KV := rfl
@[simp] theorem State.writeS_LAST_ERR (s : State) (v : Block) : (s.writeS v).LAST_ERR = s.LAST_ERR := rfl
@[simp] theorem State.writeS_bus (s : State) (v : Block) : (s.writeS v).bus = s.bus := rfl
@[simp] theorem State.writeS_pending (s : State) (v : Block) : (s.writeS v).pending = s.pending := rfl
@[simp] theorem State.writeS_responses (s : State) (v : Block) : (s.writeS v).responses = s.responses := rfl

/-! ## `loadRoundKeys` -/

@[simp] theorem State.loadRoundKeys_S (s : State) (rk : RoundKeyFile) : (s.loadRoundKeys rk).S = s.S := rfl
@[simp] theorem State.loadRoundKeys_RK (s : State) (rk : RoundKeyFile) : (s.loadRoundKeys rk).RK = rk := rfl
@[simp] theorem State.loadRoundKeys_KV (s : State) (rk : RoundKeyFile) : (s.loadRoundKeys rk).KV = true := rfl
@[simp] theorem State.loadRoundKeys_LAST_ERR (s : State) (rk : RoundKeyFile) : (s.loadRoundKeys rk).LAST_ERR = s.LAST_ERR := rfl
@[simp] theorem State.loadRoundKeys_bus (s : State) (rk : RoundKeyFile) : (s.loadRoundKeys rk).bus = s.bus := rfl
@[simp] theorem State.loadRoundKeys_pending (s : State) (rk : RoundKeyFile) : (s.loadRoundKeys rk).pending = s.pending := rfl
@[simp] theorem State.loadRoundKeys_responses (s : State) (rk : RoundKeyFile) : (s.loadRoundKeys rk).responses = s.responses := rfl

/-! ## `recordCode` -/

@[simp] theorem State.recordCode_S (s : State) (c : ErrCode) : (s.recordCode c).S = s.S := rfl
@[simp] theorem State.recordCode_RK (s : State) (c : ErrCode) : (s.recordCode c).RK = s.RK := rfl
@[simp] theorem State.recordCode_KV (s : State) (c : ErrCode) : (s.recordCode c).KV = s.KV := rfl
@[simp] theorem State.recordCode_LAST_ERR (s : State) (c : ErrCode) : (s.recordCode c).LAST_ERR = c.bits := rfl
@[simp] theorem State.recordCode_bus (s : State) (c : ErrCode) : (s.recordCode c).bus = s.bus := rfl
@[simp] theorem State.recordCode_pending (s : State) (c : ErrCode) : (s.recordCode c).pending = s.pending := rfl
@[simp] theorem State.recordCode_responses (s : State) (c : ErrCode) : (s.recordCode c).responses = s.responses := rfl

/-! ## `respond` -/

@[simp] theorem State.respond_S (s : State) (c : ErrCode) (d : BitVec 128) : (s.respond c d).S = s.S := rfl
@[simp] theorem State.respond_RK (s : State) (c : ErrCode) (d : BitVec 128) : (s.respond c d).RK = s.RK := rfl
@[simp] theorem State.respond_KV (s : State) (c : ErrCode) (d : BitVec 128) : (s.respond c d).KV = s.KV := rfl
@[simp] theorem State.respond_LAST_ERR (s : State) (c : ErrCode) (d : BitVec 128) : (s.respond c d).LAST_ERR = s.LAST_ERR := rfl
@[simp] theorem State.respond_bus (s : State) (c : ErrCode) (d : BitVec 128) : (s.respond c d).bus = s.bus := rfl
@[simp] theorem State.respond_pending (s : State) (c : ErrCode) (d : BitVec 128) : (s.respond c d).pending = s.pending := rfl
@[simp] theorem State.respond_responses (s : State) (c : ErrCode) (d : BitVec 128) : (s.respond c d).responses = s.responses ++ [⟨c.bits, d⟩] := rfl

/-! ## `present` -/

@[simp] theorem State.present_S (s : State) (rq : Request) (rest : List HostAction) : (s.present rq rest).S = s.S := rfl
@[simp] theorem State.present_RK (s : State) (rq : Request) (rest : List HostAction) : (s.present rq rest).RK = s.RK := rfl
@[simp] theorem State.present_KV (s : State) (rq : Request) (rest : List HostAction) : (s.present rq rest).KV = s.KV := rfl
@[simp] theorem State.present_LAST_ERR (s : State) (rq : Request) (rest : List HostAction) : (s.present rq rest).LAST_ERR = s.LAST_ERR := rfl
@[simp] theorem State.present_bus (s : State) (rq : Request) (rest : List HostAction) : (s.present rq rest).bus = rq := rfl
@[simp] theorem State.present_pending (s : State) (rq : Request) (rest : List HostAction) : (s.present rq rest).pending = rest := rfl
@[simp] theorem State.present_responses (s : State) (rq : Request) (rest : List HostAction) : (s.present rq rest).responses = s.responses := rfl

/-! ## `afterSuccess` -/

@[simp] theorem State.afterSuccess_S (s : State) (d : BitVec 128) : (s.afterSuccess d).S = s.S := rfl
@[simp] theorem State.afterSuccess_RK (s : State) (d : BitVec 128) : (s.afterSuccess d).RK = s.RK := rfl
@[simp] theorem State.afterSuccess_KV (s : State) (d : BitVec 128) : (s.afterSuccess d).KV = s.KV := rfl
@[simp] theorem State.afterSuccess_LAST_ERR (s : State) (d : BitVec 128) : (s.afterSuccess d).LAST_ERR = 0 := rfl
@[simp] theorem State.afterSuccess_bus (s : State) (d : BitVec 128) : (s.afterSuccess d).bus = s.bus := rfl
@[simp] theorem State.afterSuccess_pending (s : State) (d : BitVec 128) : (s.afterSuccess d).pending = s.pending := rfl
@[simp] theorem State.afterSuccess_responses (s : State) (d : BitVec 128) : (s.afterSuccess d).responses = s.responses ++ [⟨0, d⟩] := rfl

/-! ## `afterError` -/

@[simp] theorem State.afterError_S (s : State) (c : BitVec 4) : (s.afterError c).S = s.S := rfl
@[simp] theorem State.afterError_RK (s : State) (c : BitVec 4) : (s.afterError c).RK = s.RK := rfl
@[simp] theorem State.afterError_KV (s : State) (c : BitVec 4) : (s.afterError c).KV = s.KV := rfl
@[simp] theorem State.afterError_LAST_ERR (s : State) (c : BitVec 4) : (s.afterError c).LAST_ERR = c := rfl
@[simp] theorem State.afterError_bus (s : State) (c : BitVec 4) : (s.afterError c).bus = s.bus := rfl
@[simp] theorem State.afterError_pending (s : State) (c : BitVec 4) : (s.afterError c).pending = s.pending := rfl
@[simp] theorem State.afterError_responses (s : State) (c : BitVec 4) : (s.afterError c).responses = s.responses ++ [⟨c, 0⟩] := rfl

/-! ## Reset (70_reset_and_hazards.md rule R180) -/

@[simp] theorem State.reset_S : State.reset.S = Block.zero := rfl
@[simp] theorem State.reset_RK : State.reset.RK = Vector.replicate 60 Word.zero := rfl
@[simp] theorem State.reset_KV : State.reset.KV = false := rfl
@[simp] theorem State.reset_LAST_ERR : State.reset.LAST_ERR = 0 := rfl
@[simp] theorem State.reset_bus : State.reset.bus = Request.idle := rfl
@[simp] theorem State.reset_pending : State.reset.pending = [] := rfl
@[simp] theorem State.reset_responses : State.reset.responses = [] := rfl

end Sys2Proof.Machine
end

