-- ==== Sys2Proof/Laws/Operations.lean ====
section
/-!
SUPPORT. Laws/Operations.lean: for each shared operation, one lemma that says everything it can do; for `fetch` and `step`, one
for each action of the host; and `exec_cases`, which says once what a command can do to the state.
-/

namespace Sys2Proof.Machine

/-! ## How a command ends -/

theorem complete_eq (d : BitVec 128) (s : State) : complete d s = .next (s.afterSuccess d) := rfl

theorem completeKeepingLastErr_eq (d : BitVec 128) (s : State) :
    completeKeepingLastErr d s = .next { s with responses := s.responses ++ [⟨0, d⟩] } := rfl

theorem raiseError_eq (c : ErrCode) (s : State) : raiseError c s = .next (s.afterError c.bits) := rfl

theorem illegalCommand_eq (e : Illegal) (s : State) : illegalCommand e s = .next (s.afterError 3) := rfl

theorem ErrCode.bits_le (c : ErrCode) : c.bits.toNat ≤ 4 := by cases c <;> decide

theorem ErrCode.bits_eq_zero_iff (c : ErrCode) : c.bits = 0 ↔ c = .eNone := by cases c <;> decide

/-! ## Checks -/

theorem requireKey_of_key {s : State} (h : s.KV = true) (body : Outcome) : requireKey s body = body := by
  simp [requireKey, h]

theorem requireKey_of_noKey {s : State} (h : s.KV = false) (body : Outcome) :
    requireKey s body = .next (s.afterError 2) := by
  simp [requireKey, h, raiseError_eq, ErrCode.bits]

theorem requireRoundKey_of_index {k : Nat} (h : 15 ≤ k) (s : State) (body : Block → Outcome) :
    requireRoundKey k s body = .next (s.afterError 4) := by
  have : ¬ k < Config.numRoundKeys := by show ¬ k < 15; omega
  simp [requireRoundKey, this, raiseError_eq, ErrCode.bits]

theorem requireRoundKey_of_noKey {k : Nat} (hk : k < 15) {s : State} (h : s.KV = false) (body : Block → Outcome) :
    requireRoundKey k s body = .next (s.afterError 2) := by
  have : k < Config.numRoundKeys := hk
  simp [requireRoundKey, this, requireKey_of_noKey h]

theorem requireRoundKey_of_key (k : Fin 15) {s : State} (h : s.KV = true) (body : Block → Outcome) :
    requireRoundKey k s body = body (roundKey s.RK k) := by
  have : k.val < Config.numRoundKeys := k.isLt
  simp [requireRoundKey, this, requireKey_of_key h]

/-- A check on a round index passes to its body, or is an error that changes only `LAST_ERR` (R161, R163). -/
theorem requireRoundKey_cases (k : Nat) (s : State) (body : Block → Outcome) :
    (∃ j : Fin 15, k = j ∧ s.KV = true ∧ requireRoundKey k s body = body (roundKey s.RK j)) ∨
    (∃ c : ErrCode, c ≠ .eNone ∧ requireRoundKey k s body = .next (s.afterError c.bits)) := by
  by_cases hk : k < 15
  · cases hv : s.KV with
    | true => exact .inl ⟨⟨k, hk⟩, rfl, rfl, requireRoundKey_of_key ⟨k, hk⟩ hv body⟩
    | false => exact .inr ⟨.eNoKey, nofun, requireRoundKey_of_noKey hk hv body⟩
  · exact .inr ⟨.eIndex, nofun, requireRoundKey_of_index (by omega) s body⟩

/-! ## The host's next action -/

theorem step_of_idle {s : State} (h : s.pending = []) : step s = .next s := by
  simp [step, fetch, h, idleStep]

/-- Reset replaces the block's whole state (R180, R181). -/
theorem step_of_reset {s : State} {rest : List HostAction} (h : s.pending = .reset :: rest) :
    step s = .next { State.reset with pending := rest, responses := s.responses } := by
  simp [step, fetch, h, resetStep, State.present, State.reset]

theorem step_of_resetDuring {s : State} {rq : Request} {rest : List HostAction} (h : s.pending = .resetDuring rq :: rest) :
    step s = .next { State.reset with pending := rest, responses := s.responses } := by
  simp [step, fetch, h, resetStep, State.present, State.reset]

/-- A legal command word runs its command, with the request on the buses. -/
theorem step_of_command {s : State} {rq : Request} {rest : List HostAction} {i : Instr}
    (h : s.pending = .command rq :: rest) (hd : decode rq.cmd = .command i) :
    step s = exec i { s with bus := rq, pending := rest } := by
  simp [step, fetch, h, hd, State.present]

/-- An illegal command word changes only `LAST_ERR` (R69). -/
theorem step_of_illegal {s : State} {rq : Request} {rest : List HostAction} {e : Illegal}
    (h : s.pending = .command rq :: rest) (hd : decode rq.cmd = .illegal e) :
    step s = .next ({ s with bus := rq, pending := rest }.afterError 3) := by
  simp [step, fetch, h, hd, State.present, illegalCommand_eq]

/-! ## What a command can do -/

/-- The commands that write `S` (R20). -/
def writesS (i : Instr) : Bool :=
  match i with
  | .lds | .sub | .invsub | .shr | .invshr | .mix | .invmix | .ark _ | .enc | .dec => true
  | .keyexp _ | .rdrk _ | .rds | .rdstat | .gfmul _ _ => false

/-- KEYEXP with the right length loads the key (R96). -/
theorem execKeyexp_of_length (s : State) :
    execKeyexp 32 s = .next ({ s with RK := expandKey (keyOfBus s.bus.kin), KV := true }.afterSuccess 0) := by
  unfold execKeyexp
  rw [if_pos rfl, complete_eq]
  generalize expandKey (keyOfBus s.bus.kin) = rk
  rfl

/-- KEYEXP with another length is E_KEYLEN (R90, R165). -/
theorem execKeyexp_of_other {l : Nat} (h : l ≠ 32) (s : State) : execKeyexp l s = .next (s.afterError 1) :=
  if_neg (show ¬ l = Config.keyBytes from h)

/-- The code that a command answers, from the command and `KV` alone (60_exceptions.md rule R163). -/
def commandCode (i : Instr) (kv : Bool) : ErrCode :=
  match i with
  | .keyexp l => if l = 32 then .eNone else .eKeyLen
  | .rdrk k | .ark k => if 14 < k then .eIndex else if kv then .eNone else .eNoKey
  | .enc | .dec => if kv then .eNone else .eNoKey
  | .lds | .rds | .rdstat | .gfmul _ _ | .sub | .invsub | .shr | .invshr | .mix | .invmix => .eNone

/-- RDRK answers the round key (R97). -/
theorem execRdrk_of_key (k : Fin 15) {s : State} (h : s.KV = true) :
    execRdrk k s = .next (s.afterSuccess (busOfBlock (roundKey s.RK k))) :=
  requireRoundKey_of_key k h fun t => complete (busOfBlock t) s

/-- ARK adds the round key (R126). -/
theorem execArk_of_key (k : Fin 15) {s : State} (h : s.KV = true) :
    execArk k s = .next ({ s with S := addRoundKey s.S (roundKey s.RK k) }.afterSuccess 0) :=
  requireRoundKey_of_key k h fun t => complete 0 (s.writeS (addRoundKey s.S t))

/-- ENC runs the forward pipeline (R142). -/
theorem execEnc_of_key {s : State} (h : s.KV = true) :
    execEnc s = .next ({ s with S := cipher s.S s.RK }.afterSuccess 0) := requireKey_of_key h _

/-- DEC runs the inverse pipeline (R143). -/
theorem execDec_of_key {s : State} (h : s.KV = true) :
    execDec s = .next ({ s with S := invCipher s.S s.RK }.afterSuccess 0) := requireKey_of_key h _

/-- A command whose code is not E_NONE raises it, and changes only `LAST_ERR` (R161, R163). -/
theorem exec_of_error {i : Instr} {s : State} (h : commandCode i s.KV ≠ .eNone) :
    exec i s = .next (s.afterError (commandCode i s.KV).bits) := by
  have round (k : Nat) (body : Block → Outcome)
      (hk : (if 14 < k then ErrCode.eIndex else if s.KV then .eNone else .eNoKey) ≠ .eNone) :
      requireRoundKey k s body =
        .next (s.afterError (if 14 < k then ErrCode.eIndex else if s.KV then .eNone else .eNoKey).bits) := by
    by_cases h14 : 14 < k
    · rw [if_pos h14, requireRoundKey_of_index h14]; rfl
    · cases hv : s.KV with
      | true => simp [h14, hv] at hk
      | false => rw [if_neg h14, requireRoundKey_of_noKey (by omega) hv]; rfl
  have key (body : Outcome) (hk : (if s.KV then ErrCode.eNone else .eNoKey) ≠ .eNone) :
      requireKey s body = .next (s.afterError (if s.KV then ErrCode.eNone else .eNoKey).bits) := by
    cases hv : s.KV with
    | true => simp [hv] at hk
    | false => exact requireKey_of_noKey hv _
  cases i with
  | keyexp l =>
    by_cases hl : l = 32
    · simp [commandCode, hl] at h
    · simp only [commandCode, if_neg hl]
      exact execKeyexp_of_other hl s
  | rdrk k => exact round k (fun t => complete (busOfBlock t) s) h
  | ark k => exact round k (fun t => complete 0 (s.writeS (addRoundKey s.S t))) h
  | enc => exact key _ h
  | dec => exact key _ h
  | lds | rds | rdstat | gfmul | sub | invsub | shr | invshr | mix | invmix => exact absurd rfl h

/-- What one command can do: raise its error, changing only `LAST_ERR`; load a key; write `S`; only respond; or, for RDSTAT,
respond without writing `LAST_ERR`. -/
theorem exec_cases (i : Instr) (s : State) : ∃ t, exec i s = .next t ∧
    ((commandCode i s.KV ≠ .eNone ∧ t = s.afterError (commandCode i s.KV).bits) ∨
     (i = .keyexp 32 ∧ t = { s with RK := expandKey (keyOfBus s.bus.kin), KV := true }.afterSuccess 0) ∨
     (commandCode i s.KV = .eNone ∧ writesS i = true ∧ ∃ b, t = { s with S := b }.afterSuccess 0) ∨
     (commandCode i s.KV = .eNone ∧ (i = .rds ∨ (∃ k, i = .rdrk k) ∨ ∃ a b, i = .gfmul a b) ∧ ∃ d, t = s.afterSuccess d) ∨
     (i = .rdstat ∧ t = { s with responses := s.responses ++ [⟨0, busOfByte (status s)⟩] })) := by
  by_cases hc : commandCode i s.KV = .eNone
  case neg => exact ⟨_, exec_of_error hc, .inl ⟨hc, rfl⟩⟩
  have hkey (h : (if s.KV then ErrCode.eNone else .eNoKey) = .eNone) : s.KV = true := by
    cases hv : s.KV with
    | true => rfl
    | false => simp [hv] at h
  have hround (k : Nat) (h : (if 14 < k then ErrCode.eIndex else if s.KV then .eNone else .eNoKey) = .eNone) :
      k < 15 ∧ s.KV = true := by
    split at h
    · cases h
    · exact ⟨by omega, hkey h⟩
  cases i with
  | keyexp l =>
    by_cases hl : l = 32
    · subst hl
      exact ⟨_, execKeyexp_of_length s, .inr (.inl ⟨rfl, rfl⟩)⟩
    · simp [commandCode, hl] at hc
  | rdrk k =>
    obtain ⟨hk, hv⟩ := hround k hc
    exact ⟨_, execRdrk_of_key ⟨k, hk⟩ hv, .inr (.inr (.inr (.inl ⟨hc, .inr (.inl ⟨k, rfl⟩), _, rfl⟩)))⟩
  | ark k =>
    obtain ⟨hk, hv⟩ := hround k hc
    exact ⟨_, execArk_of_key ⟨k, hk⟩ hv, .inr (.inr (.inl ⟨hc, rfl, _, rfl⟩))⟩
  | enc => exact ⟨_, execEnc_of_key (hkey hc), .inr (.inr (.inl ⟨hc, rfl, _, rfl⟩))⟩
  | dec => exact ⟨_, execDec_of_key (hkey hc), .inr (.inr (.inl ⟨hc, rfl, _, rfl⟩))⟩
  | rds => exact ⟨_, rfl, .inr (.inr (.inr (.inl ⟨hc, .inl rfl, _, rfl⟩)))⟩
  | gfmul a b => exact ⟨_, rfl, .inr (.inr (.inr (.inl ⟨hc, .inr (.inr ⟨a, b, rfl⟩), _, rfl⟩)))⟩
  | rdstat => exact ⟨_, rfl, .inr (.inr (.inr (.inr ⟨rfl, rfl⟩)))⟩
  | lds | sub | invsub | shr | invshr | mix | invmix => exact ⟨_, rfl, .inr (.inr (.inl ⟨hc, rfl, _, rfl⟩))⟩

end Sys2Proof.Machine
end

