-- ==== Sys2Proof/Laws/PerInstr.lean ====
section
/-!
SUPPORT. Laws/PerInstr.lean: statements about every command as syntax, one lemma for each constructor.

`EncodedRow`: the encoder's word for a well-formed command selects the row of the opcode map that has its mnemonic
(30_encoding.md rule R66).
-/

namespace Sys2Proof.Laws.EncodedRow

/-- The encoded word of a well-formed command selects its own row. -/
def Statement (i : Instr) : Prop :=
  i.wellFormed = true → ∃ row ∈ opcodeMap, row.mnemonic = i.mnemonic ∧ row.selects (encode i) = true

/-- Every bit of a numeral's word is decided by its first 32 bits. -/
theorem forall_lt_32 {p : Nat → Prop} (h : ∀ i : Fin 32, p i) : ∀ i < 32, p i := fun i hi => h ⟨i, hi⟩

theorem keyexp (l : Nat) : Statement (.keyexp l) := by
  intro _
  refine ⟨⟨"KEYEXP", 0x00000001, 0xFF00FFFF⟩, by decide, rfl, OpcodeRow.selects_of_bits (forall_lt_32 fun i => ?_)⟩
  simp only [encode, formatL_eq_formatG, getLsbD_formatG]
  fin_cases i <;> simp

theorem rdrk (k : Nat) : Statement (.rdrk k) := by
  intro _
  refine ⟨⟨"RDRK", 0x00000002, 0xFFFFF0FF⟩, by decide, rfl, OpcodeRow.selects_of_bits (forall_lt_32 fun i => ?_)⟩
  simp only [encode, getLsbD_formatK]
  fin_cases i <;> simp

theorem lds : Statement .lds := fun _ => ⟨_, by decide, rfl, show OpcodeRow.selects ⟨"LDS", 0x10, 0xFFFFFFFF⟩ _ = _ by decide⟩
theorem rds : Statement .rds := fun _ => ⟨_, by decide, rfl, show OpcodeRow.selects ⟨"RDS", 0x11, 0xFFFFFFFF⟩ _ = _ by decide⟩
theorem rdstat : Statement .rdstat :=
  fun _ => ⟨_, by decide, rfl, show OpcodeRow.selects ⟨"RDSTAT", 0x12, 0xFFFFFFFF⟩ _ = _ by decide⟩

theorem gfmul (a b : BitVec 8) : Statement (.gfmul a b) := by
  intro _
  refine ⟨⟨"GFMUL", 0x00000020, 0x0000FFFF⟩, by decide, rfl, OpcodeRow.selects_of_bits (forall_lt_32 fun i => ?_)⟩
  simp only [encode, getLsbD_formatG]
  fin_cases i <;> simp

theorem sub : Statement .sub := fun _ => ⟨_, by decide, rfl, show OpcodeRow.selects ⟨"SUB", 0x30, 0xFFFFFFFF⟩ _ = _ by decide⟩
theorem invsub : Statement .invsub :=
  fun _ => ⟨_, by decide, rfl, show OpcodeRow.selects ⟨"INVSUB", 0x31, 0xFFFFFFFF⟩ _ = _ by decide⟩
theorem shr : Statement .shr := fun _ => ⟨_, by decide, rfl, show OpcodeRow.selects ⟨"SHR", 0x32, 0xFFFFFFFF⟩ _ = _ by decide⟩
theorem invshr : Statement .invshr :=
  fun _ => ⟨_, by decide, rfl, show OpcodeRow.selects ⟨"INVSHR", 0x33, 0xFFFFFFFF⟩ _ = _ by decide⟩
theorem mix : Statement .mix := fun _ => ⟨_, by decide, rfl, show OpcodeRow.selects ⟨"MIX", 0x34, 0xFFFFFFFF⟩ _ = _ by decide⟩
theorem invmix : Statement .invmix :=
  fun _ => ⟨_, by decide, rfl, show OpcodeRow.selects ⟨"INVMIX", 0x35, 0xFFFFFFFF⟩ _ = _ by decide⟩

theorem ark (k : Nat) : Statement (.ark k) := by
  intro _
  refine ⟨⟨"ARK", 0x00000036, 0xFFFFF0FF⟩, by decide, rfl, OpcodeRow.selects_of_bits (forall_lt_32 fun i => ?_)⟩
  simp only [encode, getLsbD_formatK]
  fin_cases i <;> simp

theorem enc : Statement .enc := fun _ => ⟨_, by decide, rfl, show OpcodeRow.selects ⟨"ENC", 0x40, 0xFFFFFFFF⟩ _ = _ by decide⟩
theorem dec : Statement .dec := fun _ => ⟨_, by decide, rfl, show OpcodeRow.selects ⟨"DEC", 0x41, 0xFFFFFFFF⟩ _ = _ by decide⟩

end Sys2Proof.Laws.EncodedRow
end

