-- ==== Sys2Proof/Laws/Runs.lean ====
section
/-!
SUPPORT. Laws/Runs.lean: how runs and sequences of commands compose (20_memory.md rule R50).
-/

namespace Sys2Proof.Machine

/-- A run goes on from where a step leads. -/
theorem run_succ_of_step {s t : State} (h : step s = .next t) (n : Nat) : run (n + 1) s = run n t := by
  rw [run, h]

/-- A run goes on from where its first part leads. -/
theorem run_add {m : Nat} {s t : State} (h : run m s = .next t) (n : Nat) : run (m + n) s = run n t := by
  induction m generalizing s with
  | zero => cases h; rw [Nat.zero_add]
  | succ m ih =>
    rw [Nat.succ_add, run]
    rw [run] at h
    cases hs : step s with
    | next u => rw [hs] at h; exact ih h
    | fault f => cases f
    | refused r => rw [hs] at h; cases h

/-- A run whose next action is a legal command goes on from that command's next state. -/
theorem run_succ_of_command {s t : State} {rq : Request} {rest : List HostAction} {i : Instr}
    (h : s.pending = .command rq :: rest) (hd : decode rq.cmd = .command i)
    (he : exec i { s with bus := rq, pending := rest } = .next t) (n : Nat) : run (n + 1) s = run n t :=
  run_succ_of_step ((step_of_command h hd).trans he) n

/-- A sequence of commands goes on from where its first part leads. -/
theorem execAll_append {is : List Instr} {s t : State} (h : execAll is s = .next t) (js : List Instr) :
    execAll (is ++ js) s = execAll js t := by
  induction is generalizing s with
  | nil => cases h; rfl
  | cons i is ih =>
    rw [List.cons_append, execAll]
    rw [execAll] at h
    cases hi : exec i s with
    | next u => rw [hi] at h; exact ih h
    | fault f => cases f
    | refused r => rw [hi] at h; cases h

end Sys2Proof.Machine
end

