-- ==== Sys2Proof/Tests/Slice0.lean ====
section
/-!
SUPPORT. Tests/Slice0.lean: tests, and a witness for the hypotheses of each statement that has any.

Every expected value comes from the spec: a word is written out from its format (30_encoding.md rules R61 to R66), and a result is
a row of 95_test_vectors.md or a rule's own example, named in the test's comment.
-/

namespace Sys2Proof.Machine.Tests

/-! ## States and readings -/

/-- The key KC3 of 95_test_vectors.md. -/
def kc3 : BitVec 256 := 0x000102030405060708090a0b0c0d0e0f101112131415161718191a1b1c1d1e1f

/-- The key KA3 of 95_test_vectors.md. -/
def ka3 : BitVec 256 := 0x603deb1015ca71be2b73aef0857d77811f352c073b6108d72d9810a30914dff4

/-- The key KDOC of 95_test_vectors.md. -/
def kdoc : BitVec 256 := 0x56727a31394e446e6d676d71764a7730666d3452335a616469374f4c4c566f41

/-- No key, the block `x` in `S`. -/
def holding (x : BitVec 128) : State := { State.reset with S := blockOfBus x }

/-- The key `key` loaded, the block `x` in `S`. -/
def keyed (key : BitVec 256) (x : BitVec 128) : State :=
  { State.reset with RK := expandKey (keyOfBus key), KV := true, S := blockOfBus x }

/-- The state in which the host is about to present `cmd` with `din` and `kin`. -/
def presenting (s : State) (cmd : BitVec 32) (din : BitVec 128) (kin : BitVec 256) : State :=
  { s with pending := [.command ⟨cmd, din, kin⟩] }

/-- The block in `S` after the outcome. -/
def sAfter (o : Outcome) : Option (BitVec 128) :=
  match o with
  | .next t => some (busOfBlock t.S)
  | .fault _ | .refused _ => none

/-- The last response after the outcome. -/
def answer (o : Outcome) : Option Response :=
  match o with
  | .next t => t.responses.getLast?
  | .fault _ | .refused _ => none

/-- Words `i` and `j` of the round-key file, `KV` and `LAST_ERR` after the outcome. -/
def keyAfter (o : Outcome) (i j : Fin 60) : Option (BitVec 32 × BitVec 32 × Bool × BitVec 4) :=
  match o with
  | .next t => some (wordBits t.RK[i], wordBits t.RK[j], t.KV, t.LAST_ERR)
  | .fault _ | .refused _ => none

/-! ## Well-formed commands (WellFormed.lean): each check refuses an ill-formed term -/

theorem test_wellFormed_refuses_long_key_length : (Instr.keyexp 256).wellFormed = false := by decide
theorem test_wellFormed_refuses_wide_index_rdrk : (Instr.rdrk 16).wellFormed = false := by decide
theorem test_wellFormed_refuses_wide_index_ark : (Instr.ark 16).wellFormed = false := by decide
theorem test_wellFormed_takes_the_edges :
    (Instr.keyexp 255).wellFormed = true ∧ (Instr.rdrk 15).wellFormed = true ∧ (Instr.ark 15).wellFormed = true := by decide

/-! ## Decoding: one word of each command, bit by bit from its format -/

theorem test_decode_keyexp : decode 0b00000000_00100001_00000000_00000001 = .command (.keyexp 33) := by decide
theorem test_decode_rdrk : decode 0b00000000_00000000_00001001_00000010 = .command (.rdrk 9) := by decide
theorem test_decode_lds : decode 0b00000000_00000000_00000000_00010000 = .command .lds := by decide
theorem test_decode_rds : decode 0b00000000_00000000_00000000_00010001 = .command .rds := by decide
theorem test_decode_rdstat : decode 0b00000000_00000000_00000000_00010010 = .command .rdstat := by decide
/-- 95_test_vectors.md V1, row `0x87020020`: `A` is the low operand byte. -/
theorem test_decode_gfmul : decode 0b10000111_00000010_00000000_00100000 = .command (.gfmul 0x02 0x87) := by decide
theorem test_decode_sub : decode 0b00000000_00000000_00000000_00110000 = .command .sub := by decide
theorem test_decode_invsub : decode 0b00000000_00000000_00000000_00110001 = .command .invsub := by decide
theorem test_decode_shr : decode 0b00000000_00000000_00000000_00110010 = .command .shr := by decide
theorem test_decode_invshr : decode 0b00000000_00000000_00000000_00110011 = .command .invshr := by decide
theorem test_decode_mix : decode 0b00000000_00000000_00000000_00110100 = .command .mix := by decide
theorem test_decode_invmix : decode 0b00000000_00000000_00000000_00110101 = .command .invmix := by decide
theorem test_decode_ark : decode 0b00000000_00000000_00000110_00110110 = .command (.ark 6) := by decide
theorem test_decode_enc : decode 0b00000000_00000000_00000000_01000000 = .command .enc := by decide
theorem test_decode_dec : decode 0b00000000_00000000_00000000_01000001 = .command .dec := by decide
/-- 30_encoding.md R70's examples, and V1's `0x83571020`. -/
theorem test_decode_rejects_reserved_bits :
    decode 0x00000130 = .illegal .reservedBit ∧ decode 0x00011036 = .illegal .reservedBit ∧
    decode 0x83571020 = .illegal .reservedBit := by decide
/-- 60_exceptions.md R163's example, and 30_encoding.md R68's all-zero word. -/
theorem test_decode_rejects_reserved_opcodes :
    decode 0x00000F37 = .illegal .reservedOpcode ∧ decode 0x00000000 = .illegal .reservedOpcode := by decide
/-- The encoder writes R66's example words back. -/
theorem test_encode_words :
    encode (.keyexp 32) = 0x00200001 ∧ encode (.rdrk 2) = 0x00000202 ∧ encode (.gfmul 0x57 0x83) = 0x83570020 ∧
    encode (.ark 15) = 0x00000F36 ∧ encode .dec = 0x00000041 := by decide
theorem test_decodeTableWord : decodeTableWord 32 0x00000E36 = some (.ark 14) ∧ decodeTableWord 32 0x37 = none := by decide

/-! ## Commands -/

/-- 41_key_schedule.md R96's example, through a step that presents the word. -/
theorem test_keyexp_kc3 :
    keyAfter (step (presenting State.reset 0x00200001 0 kc3)) 8 59 = some (0xa573c29f, 0x6d68de36, true, 0) := by
  decide +kernel
/-- L1-3: `KEYEXP 33` after a loaded key is E_KEYLEN and keeps the key. -/
theorem test_keyexp_33 :
    keyAfter (exec (.keyexp 33) (keyed kc3 0)) 8 59 = some (0xa573c29f, 0x6d68de36, true, 1) := by decide +kernel
/-- X: FIPS-197 A.3, last words of KA3's schedule, by RDRK 14 (V2's table). -/
theorem test_rdrk_14 :
    answer (exec (.rdrk 14) (keyed ka3 0)) = some ⟨0, 0xfe4890d1e6188d0b046df344706c631e⟩ := by decide +kernel
/-- V2's corner cases: RDRK 15 is E_INDEX whatever `KV` is. -/
theorem test_rdrk_15 : answer (exec (.rdrk 15) State.reset) = some ⟨4, 0⟩ := by decide
/-- 44_interface_commands.md R150's example. -/
theorem test_lds :
    sAfter (step (presenting State.reset 0x00000010 0x00112233445566778899aabbccddeeff 0)) =
      some 0x00112233445566778899aabbccddeeff := by decide +kernel
/-- 44_interface_commands.md R151's example. -/
theorem test_rds :
    answer (exec .rds (holding 0x00112233445566778899aabbccddeeff)) = some ⟨0, 0x00112233445566778899aabbccddeeff⟩ := by
  decide +kernel
/-- 44_interface_commands.md R152's example: `LAST_ERR = 4` and `KV = 1`. -/
theorem test_rdstat : answer (exec .rdstat { State.reset with KV := true, LAST_ERR := 4 }) = some ⟨0, 0x41⟩ := by decide
/-- V1: repeated reductions. -/
theorem test_gfmul_reduces : answer (exec (.gfmul 0x80 0x80) State.reset) = some ⟨0, 0x9a⟩ := by decide +kernel
/-- V1: a reduction in the last step. -/
theorem test_gfmul_last_step : answer (exec (.gfmul 0x02 0x87) State.reset) = some ⟨0, 0x15⟩ := by decide +kernel
/-- V3. -/
theorem test_sub :
    sAfter (exec .sub (holding 0x00112233445566778899aabbccddeeff)) = some 0x638293c31bfc33f5c4eeacea4bc12816 := by
  decide +kernel
/-- V3. -/
theorem test_invsub :
    sAfter (exec .invsub (holding 0x00112233445566778899aabbccddeeff)) = some 0x52e3946686edd30297f962fe27c9997d := by
  decide +kernel
/-- V3. -/
theorem test_shr :
    sAfter (exec .shr (holding 0x63cab7040953d051cd60e0e7ba70e18c)) = some 0x6353e08c0960e104cd70b751bacad0e7 := by
  decide +kernel
/-- V3. -/
theorem test_invshr :
    sAfter (exec .invshr (holding 0x000102030405060708090a0b0c0d0e0f)) = some 0x000d0a0704010e0b0805020f0c090603 := by
  decide +kernel
/-- V3: the classic columns. -/
theorem test_mix :
    sAfter (exec .mix (holding 0xdb135345f20a225c01010101c6c6c6c6)) = some 0x8e4da1bc9fdc589d01010101c6c6c6c6 := by
  decide +kernel
/-- V3: the classic columns, not what MIX gives. -/
theorem test_invmix :
    sAfter (exec .invmix (holding 0xdb135345f20a225c01010101c6c6c6c6)) = some 0x32a41d55aec3698201010101c6c6c6c6 := by
  decide +kernel
/-- V3: ARK 14 on the zero block shows `RKB(14)`. -/
theorem test_ark : sAfter (exec (.ark 14) (keyed kc3 0)) = some 0x24fc79ccbf0979e9371ac23c6d68de36 := by decide +kernel
/-- V3: ARK 15 without a key is E_INDEX, and `S` stays. -/
theorem test_ark_15 :
    answer (exec (.ark 15) (holding 1)) = some ⟨4, 0⟩ ∧ sAfter (exec (.ark 15) (holding 1)) = some 1 := by decide +kernel
/-- X: SP 800-38A F.1.5 block 1. -/
theorem test_enc :
    sAfter (exec .enc (keyed ka3 0x6bc1bee22e409f96e93d7e117393172a)) = some 0xf3eed1bdb5d2a03c064b5a7e3db181f8 := by
  decide +kernel
/-- 43_pipelines.md R142: E_NOKEY, and `S` stays. -/
theorem test_enc_without_key : answer (exec .enc (holding 1)) = some ⟨2, 0⟩ ∧ sAfter (exec .enc (holding 1)) = some 1 := by
  decide +kernel
/-- L1-4: block 0 of the source's known-answer message. -/
theorem test_dec :
    sAfter (exec .dec (keyed kdoc 0x26003e24b9c6d946dd27785f95d1e346)) = some 0x68656c6c6f20686f7727732069742067 := by
  decide +kernel

/-! ## Steps that are no command -/

/-- 30_encoding.md R69: an illegal word answers E_ILLEGAL; `S` stays. -/
theorem test_illegal_word :
    answer (step (presenting (holding 1) 0x00000130 0 0)) = some ⟨3, 0⟩ ∧
    sAfter (step (presenting (holding 1) 0x00000130 0 0)) = some 1 := by decide +kernel
/-- 70_reset_and_hazards.md R181: a reset during a command leaves no effect of it and no response. -/
theorem test_reset_during_lds :
    sAfter (step { holding 1 with pending := [.resetDuring ⟨0x00000010, 5, 0⟩] }) = some 0 ∧
    answer (step { holding 1 with pending := [.resetDuring ⟨0x00000010, 5, 0⟩] }) = none := by decide +kernel
/-- A word that the host's test places runs as the first command after reset. -/
theorem test_withFetchWord : answer (step (State.reset.withFetchWord 32 0x83570020)) = some ⟨0, 0xc1⟩ := by decide +kernel

/-! ## The assembler (30_encoding.md R73, R74) -/

theorem test_assemble_lines :
    assemble "GFMUL 0x57, 131 ; a comment\n\nARK 14\n.cmd 0x00000130" =
      some [⟨0x83570020, 0, 0⟩, ⟨0x00000E36, 0, 0⟩, ⟨0x00000130, 0, 0⟩] := by decide +kernel
theorem test_assemble_encrypt :
    assemble "ENCRYPT 0x00112233445566778899aabbccddeeff" =
      some [⟨0x10, 0x00112233445566778899aabbccddeeff, 0⟩, ⟨0x40, 0, 0⟩, ⟨0x11, 0, 0⟩] := by decide +kernel
/-- "`FROUND k` (k in 1..13)", and a block has exactly 32 digits. -/
theorem test_assemble_rejects : assemble "FROUND 14" = none ∧ assemble "LDS 0x00" = none ∧ assemble "sub" = none := by
  decide +kernel

/-! ## Witnesses: states and operands that meet the hypotheses of the statements, at the edges of their ranges -/

/-- A word of an N format command with its lowest, and one with its highest, reserved bit set. -/
abbrev reservedN (opc : BitVec 32) : Prop :=
  ((opc ||| 0x100) &&& 0xFF = opc ∧ (opc ||| 0x100) &&& 0xFFFFFF00 ≠ 0) ∧
  ((opc ||| 0x80000000) &&& 0xFF = opc ∧ (opc ||| 0x80000000) &&& 0xFFFFFF00 ≠ 0)

/-- A word of a K format command with its lowest, and one with its highest, reserved bit set. -/
abbrev reservedK (opc : BitVec 32) : Prop :=
  ((opc ||| 0x1000) &&& 0xFF = opc ∧ (opc ||| 0x1000) &&& 0xFFFFF000 ≠ 0) ∧
  ((opc ||| 0x80000000) &&& 0xFF = opc ∧ (opc ||| 0x80000000) &&& 0xFFFFF000 ≠ 0)

/-- The hypothesis inside `RejectedForReservedBit`: a state in which the host presents the word. -/
theorem witness_RejectedForReservedBit (w : BitVec 32) (din : BitVec 128) (kin : BitVec 256) :
    (presenting State.reset w din kin).pending = .command ⟨w, din, kin⟩ :: [] := rfl

theorem witness_KeyexpCommand :
    ((0x00200101#32 &&& 0xFF = 0x01 ∧ 0x00200101#32 &&& 0xFF00FF00 ≠ 0) ∧
     (0x80000001#32 &&& 0xFF = 0x01 ∧ 0x80000001#32 &&& 0xFF00FF00 ≠ 0)) ∧
    ((0 : BitVec 8) ≠ 32 ∧ (31 : BitVec 8) ≠ 32 ∧ (33 : BitVec 8) ≠ 32 ∧ (255 : BitVec 8) ≠ 32) ∧
    { State.reset with bus := ⟨0, 0, kc3⟩ }.bus.kin =
      0x000102030405060708090a0b0c0d0e0f101112131415161718191a1b1c1d1e1f := ⟨by decide, by decide, rfl⟩

/-- The states that the key-reading commands ask for: a key loaded, none loaded, KC3 loaded. -/
theorem witness_RdrkCommand :
    reservedK 0x02 ∧ (keyed kc3 0).KV = true ∧ State.reset.KV = false ∧
    (keyed ka3 0).RK = expandKey (keyOfBus ka3) ∧
    (keyed kc3 0).RK = expandKey (keyOfBus 0x000102030405060708090a0b0c0d0e0f101112131415161718191a1b1c1d1e1f) :=
  ⟨by decide, rfl, rfl, rfl, rfl⟩

theorem witness_LdsCommand :
    reservedN 0x10 ∧
    { State.reset with bus := ⟨0, 0x00112233445566778899aabbccddeeff, 0⟩ }.bus.din = 0x00112233445566778899aabbccddeeff :=
  ⟨by decide, rfl⟩

theorem witness_RdsCommand :
    reservedN 0x11 ∧
    { State.reset with bus := ⟨0, 0x00112233445566778899aabbccddeeff, 0⟩ }.bus.din = 0x00112233445566778899aabbccddeeff :=
  ⟨by decide, rfl⟩

theorem witness_RdstatCommand : reservedN 0x12 ∧ State.reset.KV = false := ⟨by decide, rfl⟩

theorem witness_GfmulCommand :
    (0x83570120#32 &&& 0xFF = 0x20 ∧ 0x83570120#32 &&& 0x0000FF00 ≠ 0) ∧
    (0x83578020#32 &&& 0xFF = 0x20 ∧ 0x83578020#32 &&& 0x0000FF00 ≠ 0) := by decide

theorem witness_SubCommand :
    reservedN 0x30 ∧ { State.reset with S := blockFill 0x00 }.S = blockFill 0x00 ∧
    { State.reset with S := blockFill 0x52 }.S = blockFill 0x52 ∧
    (holding 0x00102030405060708090a0b0c0d0e0f0).S = blockOfBus 0x00102030405060708090a0b0c0d0e0f0 :=
  ⟨by decide, rfl, rfl, rfl⟩

theorem witness_InvsubCommand :
    reservedN 0x31 ∧ { State.reset with S := blockFill 0x63 }.S = blockFill 0x63 ∧
    (holding 0x63cab7040953d051cd60e0e7ba70e18c).S = blockOfBus 0x63cab7040953d051cd60e0e7ba70e18c :=
  ⟨by decide, rfl, rfl⟩

/-- `c' = (c + r) mod 4` at the corner where it wraps and where it does not. -/
theorem witness_ShrCommand :
    reservedN 0x32 ∧ (((2 : Fin 4).val = ((3 : Fin 4).val + (3 : Fin 4).val) % 4) ∧
      ((0 : Fin 4).val = ((0 : Fin 4).val + (0 : Fin 4).val) % 4)) ∧
    { State.reset with S := blockFill 0xff }.S = blockFill 0xff ∧
    (holding 0x000102030405060708090a0b0c0d0e0f).S = blockOfBus 0x000102030405060708090a0b0c0d0e0f :=
  ⟨by decide, by decide, rfl, rfl⟩

theorem witness_InvshrCommand :
    reservedN 0x33 ∧ ((((1 : Fin 4).val + (3 : Fin 4).val) % 4 = (0 : Fin 4).val) ∧
      (((3 : Fin 4).val + (0 : Fin 4).val) % 4 = (3 : Fin 4).val)) ∧
    (holding 0x000102030405060708090a0b0c0d0e0f).S = blockOfBus 0x000102030405060708090a0b0c0d0e0f :=
  ⟨by decide, by decide, rfl⟩

/-- Columns 0 and 3 of the clauses about one column. -/
theorem witness_MixCommand :
    reservedN 0x34 ∧ (∀ c r : Fin 4, (blockFill 0xc6).byte c r = 0xc6) ∧
    { State.reset with S := blockFill 0 }.S = blockFill 0 ∧
    ((holding 0x010000000000000000000000db135345).S.col 0 = ⟨0x01, 0x00, 0x00, 0x00⟩ ∧
     (holding 0xdb135345000000000000000001000000).S.col 3 = ⟨0x01, 0x00, 0x00, 0x00⟩) ∧
    ((holding 0xdb135345000000000000000001000000).S.col 0 = ⟨0xdb, 0x13, 0x53, 0x45⟩ ∧
     (holding 0x010000000000000000000000db135345).S.col 3 = ⟨0xdb, 0x13, 0x53, 0x45⟩) ∧
    (holding 0x6353e08c0960e104cd70b751bacad0e7).S = blockOfBus 0x6353e08c0960e104cd70b751bacad0e7 :=
  ⟨by decide, by decide, rfl, by decide +kernel, by decide +kernel, rfl⟩

theorem witness_InvmixCommand :
    reservedN 0x35 ∧ (∀ c r : Fin 4, (blockFill 0xc6).byte c r = 0xc6) ∧
    ((holding 0x010000000000000000000000db135345).S.col 0 = ⟨0x01, 0x00, 0x00, 0x00⟩ ∧
     (holding 0xdb135345000000000000000001000000).S.col 3 = ⟨0x01, 0x00, 0x00, 0x00⟩) ∧
    (holding 0x5f72641557f5bc92f7be3b291db9f91a).S = blockOfBus 0x5f72641557f5bc92f7be3b291db9f91a :=
  ⟨by decide, by decide, by decide +kernel, rfl⟩

/-- Round keys 0 and 14 of a file of zeros are all-zero; the state with KC3 and R126's block. -/
theorem witness_ArkCommand :
    reservedK 0x36 ∧ (keyed kc3 0).KV = true ∧ State.reset.KV = false ∧
    ({ State.reset with KV := true }.KV = true ∧ roundKey { State.reset with KV := true }.RK 0 = blockFill 0 ∧
      roundKey { State.reset with KV := true }.RK 14 = blockFill 0) ∧
    (keyed kc3 0x00112233445566778899aabbccddeeff).RK =
      expandKey (keyOfBus 0x000102030405060708090a0b0c0d0e0f101112131415161718191a1b1c1d1e1f) ∧
    (keyed kc3 0x00112233445566778899aabbccddeeff).S = blockOfBus 0x00112233445566778899aabbccddeeff :=
  ⟨by decide, rfl, rfl, ⟨rfl, by decide, by decide⟩, rfl, rfl⟩

theorem witness_EncCommand :
    reservedN 0x40 ∧ State.reset.KV = false ∧ (keyed kc3 0x00112233445566778899aabbccddeeff).KV = true ∧
    (keyed kc3 0x00112233445566778899aabbccddeeff).RK =
      expandKey (keyOfBus 0x000102030405060708090a0b0c0d0e0f101112131415161718191a1b1c1d1e1f) ∧
    (keyed kc3 0x00112233445566778899aabbccddeeff).S = blockOfBus 0x00112233445566778899aabbccddeeff :=
  ⟨by decide, rfl, rfl, rfl, rfl⟩

theorem witness_DecCommand :
    reservedN 0x41 ∧ State.reset.KV = false ∧ (keyed kc3 0x8ea2b7ca516745bfeafc49904b496089).KV = true ∧
    (keyed kc3 0x8ea2b7ca516745bfeafc49904b496089).RK =
      expandKey (keyOfBus 0x000102030405060708090a0b0c0d0e0f101112131415161718191a1b1c1d1e1f) ∧
    (keyed kc3 0x8ea2b7ca516745bfeafc49904b496089).S = blockOfBus 0x8ea2b7ca516745bfeafc49904b496089 :=
  ⟨by decide, rfl, rfl, rfl, rfl⟩

theorem witness_DecodeOfEncodeIsTheCommand :
    (Instr.keyexp 255).wellFormed = true ∧ (Instr.keyexp 0).wellFormed = true ∧ (Instr.rdrk 15).wellFormed = true ∧
    (Instr.ark 0).wellFormed = true ∧ (Instr.gfmul 0xff 0x00).wellFormed = true ∧ Instr.dec.wellFormed = true := by decide

theorem witness_EncodeOfDecodeIsTheWord :
    decode 0x00FF0001 = .command (.keyexp 255) ∧ decode 0x00000F02 = .command (.rdrk 15) ∧
    decode 0xFF000020 = .command (.gfmul 0x00 0xff) := by decide

theorem witness_DecodedCommandIsWellFormed :
    decode 0x00FF0001 = .command (.keyexp 255) ∧ decode 0x00000F36 = .command (.ark 15) := by decide

theorem witness_OpcodeRowsDoNotOverlap :
    ⟨"ARK", 0x00000036, 0xFFFFF0FF⟩ ∈ opcodeMap ∧
    OpcodeRow.selects ⟨"ARK", 0x00000036, 0xFFFFF0FF⟩ 0x00000F36 = true := by decide

/-- A legal word presented from a state with a key and from one without, and one placed by `withFetchWord`. -/
theorem witness_StepRunsTheDecodedCommand :
    (presenting State.reset 0x00000F36 0 0).pending = .command ⟨0x00000F36, 0, 0⟩ :: [] ∧
    decode 0x00000F36 = .command (.ark 15) := ⟨rfl, by decide⟩

theorem witness_IllegalWordAnswersIllegal :
    (presenting State.reset 0x00000112 0 0).pending = .command ⟨0x00000112, 0, 0⟩ :: [] ∧
    (∀ row ∈ opcodeMap, row.selects 0x00000112 = false) ∧ (∀ row ∈ opcodeMap, row.selects 0xFFFFFFFF = false) :=
  ⟨rfl, by decide, by decide⟩

theorem witness_ResetActionResetsTheBlock :
    { keyed kc3 1 with pending := [.reset] }.pending = .reset :: [] ∧
    { keyed kc3 1 with pending := [.resetDuring ⟨0x10, 0, 0⟩] }.pending = .resetDuring ⟨0x10, 0, 0⟩ :: [] := ⟨rfl, rfl⟩

/-- A word for each line of the precedence, each met by a state that presents it. -/
theorem witness_ResponseCodeFollowsPrecedence (s : State) :
    (∀ w : BitVec 32, (presenting s w 0 0).pending = .command ⟨w, 0, 0⟩ :: []) ∧
    (∀ row ∈ opcodeMap, row.selects 0x00000F37 = false) ∧
    (0x001F0001#32 &&& 0xFF = 0x01 ∧ (0x001F0001#32).extractLsb' 16 8 ≠ 32) ∧
    (0x00000F36#32 &&& 0xFF = 0x36 ∧ (0x00000F36#32).extractLsb' 8 4 = 15) ∧
    (0x00000040#32 &&& 0xFF = 0x40 ∧ State.reset.KV = false) := ⟨fun _ => rfl, by decide, by decide, by decide, by decide⟩

/-- An error from each check: an illegal word, and ENC without a key. -/
theorem witness_ErrorChangesOnlyLastErr :
    (∃ t, step (presenting State.reset 0x00000000 0 0) = .next t ∧ t.responses = [] ++ [⟨3, 0⟩]) ∧
    (∃ t, step (presenting State.reset 0x00000040 0 0) = .next t ∧ t.responses = [] ++ [⟨2, 0⟩]) ∧
    (∃ t, step (presenting State.reset 0x00000F02 0 0) = .next t ∧ t.responses = [] ++ [⟨4, 0⟩]) ∧
    (∃ t, step (presenting State.reset 0x00FF0001 0 0) = .next t ∧ t.responses = [] ++ [⟨1, 0⟩]) :=
  ⟨⟨_, step_of_illegal (e := .reservedOpcode) rfl (by decide), rfl⟩,
   ⟨_, (step_of_command (i := .enc) rfl (by decide)).trans (exec_of_error (by decide)), rfl⟩,
   ⟨_, (step_of_command (i := .rdrk 15) rfl (by decide)).trans (exec_of_error (by decide)), rfl⟩,
   ⟨_, (step_of_command (i := .keyexp 255) rfl (by decide)).trans (execKeyexp_of_other (by decide) _), rfl⟩⟩

/-- RDSTAT, another command and an illegal word with RDSTAT's opcode byte. -/
theorem witness_LastErrRecordsTheResponse (w : BitVec 32) :
    (presenting State.reset w 0 0).pending = .command ⟨w, 0, 0⟩ :: [] ∧ 0x00000012#32 = 0x00000012 ∧
    0x00000112#32 ≠ 0x00000012 := ⟨rfl, rfl, by decide⟩

theorem witness_OnlyKeyexpWritesRoundKeys (w : BitVec 32) :
    (presenting State.reset w 0 kc3).pending = .command ⟨w, 0, kc3⟩ :: [] ∧ 0x001F0001#32 ≠ 0x00200001 := ⟨rfl, by decide⟩

/-- LDS of 1 from reset changes `S`. -/
theorem witness_StateRegisterWriters :
    (presenting State.reset 0x00000010 1 0).pending = .command ⟨0x00000010, 1, 0⟩ :: [] ∧
    ∃ t, step (presenting State.reset 0x00000010 1 0) = .next t ∧ t.S ≠ (presenting State.reset 0x00000010 1 0).S :=
  ⟨rfl, _, step_of_command (i := .lds) rfl (by decide), by decide +kernel⟩

/-- The invariant holds with a key loaded and an error answered, and there is a step from that state. -/
theorem witness_EveryStepKeepsTheInvariant :
    Inv { keyed kc3 1 with LAST_ERR := 4, responses := [⟨4, 0⟩] } ∧
    ∃ t, step { keyed kc3 1 with LAST_ERR := 4, responses := [⟨4, 0⟩] } = .next t :=
  ⟨⟨by show (4#4).toNat ≤ 4; decide, fun _ => ⟨_, rfl⟩, by intro r hr; simp at hr; subst hr; decide⟩, _, step_of_idle rfl⟩

/-- A state before the host acts, and the state after it presented LDS. -/
theorem witness_ReachableStatesAreSafe :
    Reachable (presenting State.reset 0x00000010 1 0) ∧ ∃ t, Reachable t ∧ t.S ≠ State.reset.S :=
  ⟨.start _, _, .step (.start [.command ⟨0x00000010, 1, 0⟩]) (step_of_command (i := .lds) rfl (by decide)), by decide +kernel⟩

/-- No key loaded, and the host about to load one. -/
theorem witness_RoundKeysAreUnobservableWithoutKey : (presenting State.reset 0x00200001 0 kc3).KV = false := rfl

/-- Words for which `DIN`, `KIN` or neither is read, with buses that agree or differ accordingly. -/
theorem witness_CommandDependsOnlyOnItsInputs :
    ((0x00000010#32 = 0x00000010 → (1#128) = 1) ∧ (0x00000010#32 = 0x00200001 → kc3 = ka3)) ∧
    ((0x00200001#32 = 0x00000010 → (1#128) = 2) ∧ (0x00200001#32 = 0x00200001 → kc3 = kc3)) ∧
    ((0x00210001#32 = 0x00000010 → (1#128) = 2) ∧ (0x00210001#32 = 0x00200001 → kc3 = ka3)) ∧
    (presenting State.reset 0x00000040 0 0).pending ≠ [] := by
  refine ⟨⟨fun _ => rfl, fun h => absurd h (by decide)⟩, ⟨fun h => absurd h (by decide), fun _ => rfl⟩,
    ⟨fun h => absurd h (by decide), fun h => absurd h (by decide)⟩, ?_⟩
  simp [presenting]

theorem witness_ErrorsAreNotSticky :
    (presenting State.reset 0x00000040 0 0).pending = .command ⟨0x00000040, 0, 0⟩ :: [] ∧ 0x00000040#32 ≠ 0x00000012 ∧
    0x00000112#32 ≠ 0x00000012 := ⟨rfl, by decide, by decide⟩

theorem witness_ReadsLeaveWhatTheyRead :
    (Instr.rds = .rds) ∧ (Instr.rdstat = .rdstat) ∧ (∃ k < 16, Instr.rdrk 0 = .rdrk k) ∧ ∃ k < 16, Instr.rdrk 15 = .rdrk k :=
  ⟨rfl, rfl, ⟨0, by decide, rfl⟩, 15, by decide, rfl⟩

theorem witness_EffectsReachTheNextCommand : (keyed kc3 0).KV = true := rfl

theorem witness_GfMulFieldLaws : (0x01 : Byte) ≠ 0 ∧ (0xff : Byte) ≠ 0 := by decide

/-- Words 8, 9, 12, 56 and 59: the ends of the range and each branch. -/
theorem witness_ExpandedKeyRecurrence :
    (8 ≤ 8 ∧ 8 < 60 ∧ 8 % 8 = 0) ∧ (8 ≤ 9 ∧ 9 < 60 ∧ 9 % 8 = 1) ∧ (8 ≤ 12 ∧ 12 < 60 ∧ 12 % 8 = 4) ∧
    (8 ≤ 56 ∧ 56 < 60 ∧ 56 % 8 = 0) ∧ (8 ≤ 59 ∧ 59 < 60 ∧ 59 % 8 = 3) := by decide

/-- Zero and its `b = 0`; 1; R83's pair of inverses. -/
theorem witness_SboxTablesAgreeWithTheirChecks :
    (if (0 : Byte) = 0 then (0 : Byte) = 0 else gfMul 0 0 = 1) ∧ (if (1 : Byte) = 0 then (1 : Byte) = 0 else gfMul 1 1 = 1) ∧
    (if (0x53 : Byte) = 0 then (0xca : Byte) = 0 else gfMul 0x53 0xca = 1) := by decide +kernel

/-- The first and the last full round. -/
theorem witness_PipelineRounds : (1 ≤ (1 : Fin 15).val ∧ (1 : Fin 15).val ≤ 13) ∧ (1 ≤ (13 : Fin 15).val ∧ (13 : Fin 15).val ≤ 13) := by
  decide

theorem witness_DecryptionUndoesEncryption : (keyed kc3 1).KV = true := rfl

theorem witness_PipelinesEqualPrimitiveSequences : (keyed kc3 1).KV = true ∧ (holding 1).KV = false := ⟨rfl, rfl⟩

theorem witness_EncryptThenDecryptAnswersTheBlock : (keyed kc3 1).KV = true := rfl

/-- The first and the last full round. -/
theorem witness_PseudoInstructionWords : (1 ≤ 1 ∧ 1 ≤ 13) ∧ (1 ≤ 13 ∧ 13 ≤ 13) := by decide

end Sys2Proof.Machine.Tests
end

section
/-!
Proofs: the word behind a decoded command. What the encoder writes for the decoded command is the word itself, so two words
that decode to the same command are equal (30_encoding.md rules R61 to R67).
-/

namespace Sys2Proof

theorem guardReserved_eq_command_iff {clear : Bool} {i j : Instr} :
    guardReserved clear i = .command j ↔ clear = true ∧ i = j := by
  cases clear <;> simp [guardReserved]

/-- The encoder writes a legal format N word back (R61). -/
theorem encode_of_decodeN {w : BitVec 32} {o : BitVec 8} {i j : Instr} (h : decodeN w i = .command j)
    (hi : encode i = formatN o) (ho : (opcField w).toNat = o.toNat) : encode j = w := by
  obtain ⟨hclear, rfl⟩ := guardReserved_eq_command_iff.mp h
  obtain rfl : opcField w = o := BitVec.eq_of_toNat_eq ho
  rw [hi, formatN_fields_iff, hclear]

/-- The encoder writes a legal format K word back (R62). -/
theorem encode_of_decodeK {w : BitVec 32} {o : BitVec 8} {i : Nat → Instr} {j : Instr} (h : decodeK w i = .command j)
    (hi : ∀ k, encode (i k) = formatK (BitVec.ofNat 4 k) o) (ho : (opcField w).toNat = o.toNat) : encode j = w := by
  obtain ⟨hclear, rfl⟩ := guardReserved_eq_command_iff.mp h
  obtain rfl : opcField w = o := BitVec.eq_of_toNat_eq ho
  rw [hi, BitVec.ofNat_toNat, BitVec.setWidth_eq, formatK_fields_iff, hclear]

/-- The encoder writes a legal format G word back (R63). -/
theorem encode_of_decodeG {w : BitVec 32} {o : BitVec 8} {i : BitVec 8 → BitVec 8 → Instr} {j : Instr}
    (h : decodeG w i = .command j) (hi : ∀ a b, encode (i a b) = formatG b a o)
    (ho : (opcField w).toNat = o.toNat) : encode j = w := by
  obtain ⟨hclear, rfl⟩ := guardReserved_eq_command_iff.mp h
  obtain rfl : opcField w = o := BitVec.eq_of_toNat_eq ho
  rw [hi, formatG_fields_iff, hclear]

/-- The encoder writes a legal format L word back (R64). -/
theorem encode_of_decodeL {w : BitVec 32} {o : BitVec 8} {i : Nat → Instr} {j : Instr} (h : decodeL w i = .command j)
    (hi : ∀ l, encode (i l) = formatL (BitVec.ofNat 8 l) o) (ho : (opcField w).toNat = o.toNat) : encode j = w := by
  obtain ⟨hclear, rfl⟩ := guardReserved_eq_command_iff.mp h
  obtain rfl : opcField w = o := BitVec.eq_of_toNat_eq ho
  rw [hi, BitVec.ofNat_toNat, BitVec.setWidth_eq, formatL_fields_iff, hclear]

/-- The encoder writes a legal word back: the decoder ignores no bit (R67, R70). The cases stand in the order of the opcode
map's rows (R66), so equal formats are neighbours. -/
theorem encode_of_decode {w : BitVec 32} {i : Instr} (h : decode w = .command i) : encode i = w := by
  obtain ⟨ho, hd⟩ | ⟨ho, hd⟩ | ⟨ho, hd⟩ | ⟨ho, hd⟩ | ⟨ho, hd⟩ | ⟨ho, hd⟩ | ⟨ho, hd⟩ | ⟨ho, hd⟩ | ⟨ho, hd⟩ | ⟨ho, hd⟩ |
    ⟨ho, hd⟩ | ⟨ho, hd⟩ | ⟨ho, hd⟩ | ⟨ho, hd⟩ | ⟨ho, hd⟩ | ⟨-, hd⟩ := decode_cases w <;> rw [hd] at h
  · exact encode_of_decodeL h (fun _ => rfl) ho
  · exact encode_of_decodeK h (fun _ => rfl) ho
  iterate 3
    · exact encode_of_decodeN h rfl ho
  · exact encode_of_decodeG h (fun _ _ => rfl) ho
  iterate 6
    · exact encode_of_decodeN h rfl ho
  · exact encode_of_decodeK h (fun _ => rfl) ho
  iterate 2
    · exact encode_of_decodeN h rfl ho
  · cases h

/-- Two legal words are equal exactly when their commands are. -/
theorem word_eq_iff_of_decode {w v : BitVec 32} {i j : Instr} (hw : decode w = .command i) (hv : decode v = .command j) :
    w = v ↔ i = j := by
  constructor
  · rintro rfl
    exact Decoded.command.inj (hw.symm.trans hv)
  · rintro rfl
    exact (encode_of_decode hw).symm.trans (encode_of_decode hv)

/-- An illegal word is no legal word. -/
theorem word_ne_of_decode_illegal {w v : BitVec 32} {e : Illegal} {j : Instr} (hw : decode w = .illegal e)
    (hv : decode v = .command j) : w ≠ v := by
  rintro rfl
  cases hw.symm.trans hv

/-- The word of RDSTAT (R66). -/
theorem decode_rdstat_word : decode 0x00000012 = .command .rdstat := by decide

/-- The word of KEYEXP with `L = 32` (R66, R96). -/
theorem decode_keyexp256_word : decode 0x00200001 = .command (.keyexp 32) := by decide

end Sys2Proof
end

section
/-!
Proofs: what one command records in `LAST_ERR` and in `RK` (10_state.md rules R23 and R26), and O29 and O30 from it.
-/

namespace Sys2Proof.Machine

/-- A command adds one response and records its code, but RDSTAT leaves `LAST_ERR` (R26). -/
theorem exec_records_response (i : Instr) (s : State) :
    ∃ t r, exec i s = .next t ∧ t.responses = s.responses ++ [r] ∧
      t.LAST_ERR = if i = .rdstat then s.LAST_ERR else r.resp := by
  obtain ⟨t, ht, hcases⟩ := exec_cases i s
  obtain ⟨hc, rfl⟩ | ⟨rfl, rfl⟩ | ⟨-, hS, b, rfl⟩ | ⟨-, hi, d, rfl⟩ | ⟨rfl, rfl⟩ := hcases
  · have hne : i ≠ .rdstat := by rintro rfl; exact hc rfl
    exact ⟨_, _, ht, rfl, (if_neg hne).symm⟩
  · exact ⟨_, _, ht, rfl, rfl⟩
  · have hne : i ≠ .rdstat := by rintro rfl; cases hS
    exact ⟨_, _, ht, rfl, (if_neg hne).symm⟩
  · have hne : i ≠ .rdstat := by rintro rfl; simp at hi
    exact ⟨_, _, ht, rfl, (if_neg hne).symm⟩
  · exact ⟨_, _, ht, rfl, rfl⟩

/-- KEYEXP with `L = 32` rewrites `RK`, and no other command writes it (R23). -/
theorem exec_RK (i : Instr) (s : State) :
    ∃ t, exec i s = .next t ∧ t.RK = if i = .keyexp 32 then expandKey (keyOfBus s.bus.kin) else s.RK := by
  obtain ⟨t, ht, hcases⟩ := exec_cases i s
  refine ⟨t, ht, ?_⟩
  obtain ⟨hc, rfl⟩ | ⟨rfl, rfl⟩ | ⟨-, hS, b, rfl⟩ | ⟨-, hi, d, rfl⟩ | ⟨rfl, rfl⟩ := hcases
  · have hne : i ≠ .keyexp 32 := by rintro rfl; exact hc rfl
    rw [if_neg hne, State.afterError_RK]
  · rw [if_pos rfl, State.afterSuccess_RK]
  · have hne : i ≠ .keyexp 32 := by rintro rfl; cases hS
    rw [if_neg hne, State.afterSuccess_RK]
  · have hne : i ≠ .keyexp 32 := by rintro rfl; simp at hi
    rw [if_neg hne, State.afterSuccess_RK]
  · rw [if_neg nofun]

/-- Settles O29: an illegal word records E_ILLEGAL, and a legal one is RDSTAT exactly when it is RDSTAT's word. -/
theorem lastErrRecordsTheResponse : Obligations.LastErrRecordsTheResponse := by
  unfold Obligations.LastErrRecordsTheResponse
  refine ⟨fun s rq rest hp => ?_, State.reset_LAST_ERR⟩
  cases hd : decode rq.cmd with
  | illegal e =>
    exact ⟨_, _, step_of_illegal hp hd, rfl, (if_neg (word_ne_of_decode_illegal hd decode_rdstat_word)).symm⟩
  | command i =>
    simp only [step_of_command hp hd, word_eq_iff_of_decode hd decode_rdstat_word]
    exact exec_records_response i { s with bus := rq, pending := rest }

/-- Settles O30: an illegal word leaves `RK`, and a legal one is KEYEXP with `L = 32` exactly when it is that command's word. -/
theorem onlyKeyexpWritesRoundKeys : Obligations.OnlyKeyexpWritesRoundKeys := by
  unfold Obligations.OnlyKeyexpWritesRoundKeys
  intro s rq rest hp
  cases hd : decode rq.cmd with
  | illegal e =>
    exact ⟨_, step_of_illegal hp hd, (if_neg (word_ne_of_decode_illegal hd decode_keyexp256_word)).symm⟩
  | command i =>
    simp only [step_of_command hp hd, word_eq_iff_of_decode hd decode_keyexp256_word]
    exact exec_RK i { s with bus := rq, pending := rest }

end Sys2Proof.Machine
end

section
/-!
Proofs: bytes of words and blocks as bit fields (20_memory.md rules R41 and R43), and O56 from it.
-/

namespace Sys2Proof.Machine

/-- Byte `r` of a word is bits `[31-8r : 24-8r]` (R43). -/
theorem extractLsb'_wordBits (w : Word) (r : Fin 4) : (wordBits w).extractLsb' (24 - 8 * r.val) 8 = w.byte r := by
  apply BitVec.eq_of_getLsbD_eq
  intro i hi
  rw [BitVec.getLsbD_extractLsb', getLsbD_wordBits]
  match r with
  | 0 => simp [hi, Word.byte, show ¬ 24 + i < 8 by omega, show ¬ 24 + i < 16 by omega]
  | 1 => simp [hi, Word.byte, show ¬ 16 + i < 8 by omega, show ¬ 16 + i < 16 by omega, show 16 + i < 24 by omega]
  | 2 => simp [hi, Word.byte, show 8 + i < 16 by omega]
  | 3 => simp [hi, Word.byte]

/-- A field that lies inside another field of a bit vector. -/
theorem extractLsb'_extractLsb'_of_add_le {n : Nat} (x : BitVec n) {i j l m : Nat} (h : j + l ≤ m) :
    (x.extractLsb' i m).extractLsb' j l = x.extractLsb' (i + j) l := by
  apply BitVec.eq_of_getLsbD_eq
  intro k hk
  simp [hk, show j + k < m by omega, Nat.add_assoc]

/-- The byte of a block on its bus, as the byte of the column that holds it (R41). -/
theorem extractLsb'_byte_busOfBlock (b : Block) (c r : Fin 4) :
    (busOfBlock b).extractLsb' (120 - 8 * (4 * c.val + r.val)) 8 = b.byte c r := by
  calc (busOfBlock b).extractLsb' (120 - 8 * (4 * c.val + r.val)) 8
      = (busOfBlock b).extractLsb' (96 - 32 * c.val + (24 - 8 * r.val)) 8 := by congr 1; omega
    _ = ((busOfBlock b).extractLsb' (96 - 32 * c.val) 32).extractLsb' (24 - 8 * r.val) 8 :=
        (extractLsb'_extractLsb'_of_add_le _ (by omega)).symm
    _ = (b.col c).byte r := by rw [extractLsb'_busOfBlock, extractLsb'_wordBits]

@[simp] theorem busOfBlock_blockOfBus (v : BitVec 128) : busOfBlock (blockOfBus v) = v :=
  bus_ext fun c r => by rw [extractLsb'_byte_busOfBlock, byte_blockOfBus]

@[simp] theorem blockOfBus_busOfBlock (b : Block) : blockOfBus (busOfBlock b) = b :=
  Block.ext_byte fun c r => by rw [byte_blockOfBus, extractLsb'_byte_busOfBlock]

/-- Settles O56: the bytes of a block on its bus are its own, and bus values and blocks are determined by their bytes. -/
theorem blockBusPacking : Obligations.BlockBusPacking := by
  unfold Obligations.BlockBusPacking
  exact ⟨extractLsb'_byte_busOfBlock, busOfBlock_blockOfBus, blockOfBus_busOfBlock⟩

end Sys2Proof.Machine
end

section
/-!
Proofs: the decoder and the opcode map (30_encoding.md rules R66 to R70). A word decodes to a command exactly when a row of the map
selects it, and then that row has the command's mnemonic: `exists_row_of_decode` and `decode_of_selects`.
-/

namespace Sys2Proof

/-- A field that a row's mask covers holds in every selected word what the row's match holds there (R66). -/
theorem OpcodeRow.extractLsb'_of_selects {row : OpcodeRow} {w : BitVec 32} (hs : row.selects w = true) {i n : Nat}
    (hmask : row.mask.extractLsb' i n = BitVec.allOnes n) : w.extractLsb' i n = row.matchBits.extractLsb' i n := by
  have hmatch : w &&& row.mask = row.matchBits := beq_iff_eq.mp hs
  rw [← hmatch, BitVec.extractLsb'_and, hmask, BitVec.and_allOnes]

/-- The mask of each row covers the opcode byte (R67). -/
theorem opcField_of_selects {row : OpcodeRow} {w : BitVec 32} (hrow : row ∈ opcodeMap) (hs : row.selects w = true) :
    opcField w = opcField row.matchBits := by
  have hmask : ∀ row ∈ opcodeMap, row.mask.extractLsb' 0 8 = BitVec.allOnes 8 := by decide
  exact OpcodeRow.extractLsb'_of_selects hs (hmask row hrow)

/-- The rows' opcodes differ, so a word selects at most one row (R67). -/
theorem row_eq_of_selects {row row' : OpcodeRow} {w : BitVec 32} (hrow : row ∈ opcodeMap) (hrow' : row' ∈ opcodeMap)
    (hs : row.selects w = true) (hs' : row'.selects w = true) : row = row' := by
  have hinj : ∀ row ∈ opcodeMap, ∀ row' ∈ opcodeMap, opcField row.matchBits = opcField row'.matchBits → row = row' := by decide
  exact hinj row hrow row' hrow' ((opcField_of_selects hrow hs).symm.trans (opcField_of_selects hrow' hs'))

/-- The opcodes of the map's rows (R66). -/
def assignedOpcodes : List Nat := opcodeMap.map fun row => (opcField row.matchBits).toNat

theorem assignedOpcodes_eq : assignedOpcodes =
    [0x01, 0x02, 0x10, 0x11, 0x12, 0x20, 0x30, 0x31, 0x32, 0x33, 0x34, 0x35, 0x36, 0x40, 0x41] := by decide

/-! ## From a command to its row -/

theorem wellFormed_of_guardReserved {clear : Bool} {i j : Instr} (h : guardReserved clear i = .command j)
    (hi : i.wellFormed = true) : j.wellFormed = true := by
  obtain ⟨-, rfl⟩ := guardReserved_eq_command_iff.mp h
  exact hi

/-- The decoded operands fit their fields (R65). -/
theorem wellFormed_of_decode {w : BitVec 32} {i : Instr} (h : decode w = .command i) : i.wellFormed = true := by
  obtain ⟨-, hd⟩ | ⟨-, hd⟩ | ⟨-, hd⟩ | ⟨-, hd⟩ | ⟨-, hd⟩ | ⟨-, hd⟩ | ⟨-, hd⟩ | ⟨-, hd⟩ | ⟨-, hd⟩ | ⟨-, hd⟩ | ⟨-, hd⟩ |
    ⟨-, hd⟩ | ⟨-, hd⟩ | ⟨-, hd⟩ | ⟨-, hd⟩ | ⟨-, hd⟩ := decode_cases w <;> rw [hd] at h
  · exact wellFormed_of_guardReserved h (decide_eq_true (lField w).isLt)
  · exact wellFormed_of_guardReserved h (decide_eq_true (kField w).isLt)
  iterate 10
    · exact wellFormed_of_guardReserved h rfl
  · exact wellFormed_of_guardReserved h (decide_eq_true (kField w).isLt)
  iterate 2
    · exact wellFormed_of_guardReserved h rfl
  · cases h

/-- The word of every well-formed command selects the row with its mnemonic (R66). -/
theorem encodedRow_statement (i : Instr) : Laws.EncodedRow.Statement i :=
  match i with
  | .keyexp l => Laws.EncodedRow.keyexp l
  | .rdrk k => Laws.EncodedRow.rdrk k
  | .lds => Laws.EncodedRow.lds
  | .rds => Laws.EncodedRow.rds
  | .rdstat => Laws.EncodedRow.rdstat
  | .gfmul a b => Laws.EncodedRow.gfmul a b
  | .sub => Laws.EncodedRow.sub
  | .invsub => Laws.EncodedRow.invsub
  | .shr => Laws.EncodedRow.shr
  | .invshr => Laws.EncodedRow.invshr
  | .mix => Laws.EncodedRow.mix
  | .invmix => Laws.EncodedRow.invmix
  | .ark k => Laws.EncodedRow.ark k
  | .enc => Laws.EncodedRow.enc
  | .dec => Laws.EncodedRow.dec

/-- A legal word selects the row of its command (R66). -/
theorem exists_row_of_decode {w : BitVec 32} {i : Instr} (h : decode w = .command i) :
    ∃ row ∈ opcodeMap, row.mnemonic = i.mnemonic ∧ row.selects w = true := by
  have hrow := encodedRow_statement i (wellFormed_of_decode h)
  rwa [encode_of_decode h] at hrow

/-! ## From a row to its command -/

/-- A field is zero in a selected word when the row of the word's opcode has a mask that covers the field and a match that is
zero there (R66, R70). -/
theorem extractLsb'_eq_zero_of_selects {row : OpcodeRow} {w : BitVec 32} (hrow : row ∈ opcodeMap) (hs : row.selects w = true)
    {o : Nat} (ho : (opcField w).toNat = o) {i n : Nat}
    (hfield : ∀ row ∈ opcodeMap, (opcField row.matchBits).toNat = o →
      row.mask.extractLsb' i n = BitVec.allOnes n ∧ row.matchBits.extractLsb' i n = 0) :
    w.extractLsb' i n = 0 := by
  rw [opcField_of_selects hrow hs] at ho
  obtain ⟨hmask, hmatch⟩ := hfield row hrow ho
  rw [OpcodeRow.extractLsb'_of_selects hs hmask, hmatch]

/-- A selected word's opcode is assigned, and the word passes the reserved-bit check of that opcode's format (R67, R70). -/
theorem exists_decode_of_selects {row : OpcodeRow} {w : BitVec 32} (hrow : row ∈ opcodeMap) (hs : row.selects w = true) :
    ∃ i, decode w = .command i := by
  obtain ⟨ho, hd⟩ | ⟨ho, hd⟩ | ⟨ho, hd⟩ | ⟨ho, hd⟩ | ⟨ho, hd⟩ | ⟨ho, hd⟩ | ⟨ho, hd⟩ | ⟨ho, hd⟩ | ⟨ho, hd⟩ | ⟨ho, hd⟩ |
    ⟨ho, hd⟩ | ⟨ho, hd⟩ | ⟨ho, hd⟩ | ⟨ho, hd⟩ | ⟨ho, hd⟩ | ⟨ho, -⟩ := decode_cases w
  · have hb : w.extractLsb' 24 8 = 0 := extractLsb'_eq_zero_of_selects hrow hs ho (by decide)
    have hmid : w.extractLsb' 8 8 = 0 := extractLsb'_eq_zero_of_selects hrow hs ho (by decide)
    exact ⟨_, hd.trans (guardReserved_eq_command_iff.mpr
      ⟨Bool.and_eq_true_iff.mpr ⟨beq_iff_eq.mpr hb, beq_iff_eq.mpr hmid⟩, rfl⟩)⟩
  iterate 14
    · exact ⟨_, hd.trans (guardReserved_eq_command_iff.mpr
        ⟨beq_iff_eq.mpr (extractLsb'_eq_zero_of_selects hrow hs ho (by decide)), rfl⟩)⟩
  · rw [← assignedOpcodes_eq, opcField_of_selects hrow hs] at ho
    exact absurd (List.mem_map_of_mem hrow) ho

/-- A word that selects a row decodes to a command with that row's mnemonic (R66). -/
theorem decode_of_selects {row : OpcodeRow} {w : BitVec 32} (hrow : row ∈ opcodeMap) (hs : row.selects w = true) :
    ∃ i, decode w = .command i ∧ i.mnemonic = row.mnemonic := by
  obtain ⟨i, hd⟩ := exists_decode_of_selects hrow hs
  obtain ⟨row', hrow', hm, hs'⟩ := exists_row_of_decode hd
  obtain rfl := row_eq_of_selects hrow hrow' hs hs'
  exact ⟨i, hd, hm.symm⟩

/-! ## Illegal words -/

/-- The illegal words are those that select no row (R69). -/
theorem decode_illegal_iff (w : BitVec 32) :
    (∃ e, decode w = .illegal e) ↔ ∀ row ∈ opcodeMap, row.selects w = false := by
  constructor
  · rintro ⟨e, he⟩ row hrow
    rw [← Bool.not_eq_true]
    intro hs
    obtain ⟨i, hd⟩ := exists_decode_of_selects hrow hs
    cases he.symm.trans hd
  · intro hnone
    cases hd : decode w with
    | illegal e => exact ⟨e, rfl⟩
    | command i =>
      obtain ⟨row, hrow, -, hs⟩ := exists_row_of_decode hd
      cases (hnone row hrow).symm.trans hs

/-- The low byte of a word is its opcode field (R60). -/
theorem and_0xFF_eq_ofNat_opcField (w : BitVec 32) : w &&& 0xFF = BitVec.ofNat 32 (opcField w).toNat :=
  (opcField_eq_iff w _ (opcField w).isLt).mp rfl

theorem toNat_and_0xFF (w : BitVec 32) : (w &&& 0xFF).toNat = (opcField w).toNat := by
  have hlt : (opcField w).toNat < 256 := (opcField w).isLt
  rw [and_0xFF_eq_ofNat_opcField, BitVec.toNat_ofNat]
  omega

/-- A word's low byte is a row's opcode exactly when the opcode is assigned (R66). -/
theorem exists_row_opcode_iff (w : BitVec 32) :
    (∃ row ∈ opcodeMap, w &&& 0xFF = row.matchBits &&& 0xFF) ↔ (opcField w).toNat ∈ assignedOpcodes := by
  simp only [assignedOpcodes, List.mem_map, ← toNat_and_0xFF, BitVec.toNat_inj, eq_comm]

/-- A word is rejected for its opcode exactly when no row has that opcode (R67, R68). -/
theorem decode_reservedOpcode_iff (w : BitVec 32) :
    decode w = .illegal .reservedOpcode ↔ (opcField w).toNat ∉ assignedOpcodes := by
  have hguard (clear : Bool) (i : Instr) : guardReserved clear i ≠ .illegal .reservedOpcode := by
    cases clear <;> exact nofun
  rw [assignedOpcodes_eq]
  obtain ⟨ho, hd⟩ | ⟨ho, hd⟩ | ⟨ho, hd⟩ | ⟨ho, hd⟩ | ⟨ho, hd⟩ | ⟨ho, hd⟩ | ⟨ho, hd⟩ | ⟨ho, hd⟩ | ⟨ho, hd⟩ | ⟨ho, hd⟩ |
    ⟨ho, hd⟩ | ⟨ho, hd⟩ | ⟨ho, hd⟩ | ⟨ho, hd⟩ | ⟨ho, hd⟩ | ⟨ho, hd⟩ := decode_cases w
  iterate 15
    · exact iff_of_false (hd ▸ hguard _ _) (by rw [ho]; decide)
  · exact iff_of_true hd ho

/-- The decoder names two checks, so an illegal word fails the reserved-bit check when it passes the opcode check (R67). -/
theorem decode_reservedBit_iff (w : BitVec 32) :
    decode w = .illegal .reservedBit ↔ decode w ≠ .illegal .reservedOpcode ∧ ∃ e, decode w = .illegal e := by
  constructor
  · intro h
    rw [h]
    exact ⟨nofun, _, rfl⟩
  · rintro ⟨hne, e, he⟩
    cases e with
    | reservedOpcode => exact absurd he hne
    | reservedBit => exact he

/-! ## The obligations -/

/-- Settles O19: a selected row gives its command, and a word that selects none is illegal. -/
theorem decoderFollowsOpcodeMap : Obligations.DecoderFollowsOpcodeMap := by
  unfold Obligations.DecoderFollowsOpcodeMap
  intro w
  split
  next row hfind =>
    have hs : row.selects w = true := List.find?_some (p := fun r : OpcodeRow => r.selects w) hfind
    exact decode_of_selects (List.mem_of_find?_eq_some hfind) hs
  next hfind => exact (decode_illegal_iff w).mpr fun row hrow => Bool.eq_false_iff.mpr (List.find?_eq_none.mp hfind row hrow)

/-- Settles O21: among the byte values, the listed ranges are the complement of the fifteen assigned opcodes. -/
theorem illegalWordsAreRejectedByName : Obligations.IllegalWordsAreRejectedByName := by
  unfold Obligations.IllegalWordsAreRejectedByName
  refine ⟨fun w => ?_, by simp, fun w => ?_⟩
  · have hlt : (opcField w).toNat < 256 := (opcField w).isLt
    rw [decode_reservedOpcode_iff, toNat_and_0xFF, assignedOpcodes_eq]
    simp only [List.mem_append, List.mem_range'_1, List.mem_cons, List.not_mem_nil, or_false]
    omega
  · rw [decode_reservedBit_iff, decode_illegal_iff, exists_row_opcode_iff, Ne, decode_reservedOpcode_iff, not_not]

/-- Settles O24: a word that selects no row is illegal, and an illegal word answers E_ILLEGAL. -/
theorem illegalWordAnswersIllegal : Obligations.IllegalWordAnswersIllegal := by
  unfold Obligations.IllegalWordAnswersIllegal
  intro s rq rest hp hnone
  obtain ⟨e, hd⟩ := (decode_illegal_iff rq.cmd).mpr hnone
  exact Machine.step_of_illegal hp hd

end Sys2Proof
end

section
/-!
Proofs: a word with a reserved bit set is rejected (30_encoding.md rule R70).
-/

namespace Sys2Proof

/-- A mask inside a field that is zero selects nothing of the word. -/
theorem and_mask_eq_zero_of_field {w mask : BitVec 32} {i n : Nat}
    (hmask : ∀ j < 32, mask.getLsbD j = true → i ≤ j ∧ j < i + n) (hfield : w.extractLsb' i n = 0) : w &&& mask = 0 := by
  apply BitVec.eq_of_getLsbD_eq
  intro j hj
  cases hm : mask.getLsbD j with
  | false => simp [hm]
  | true =>
    obtain ⟨hij, hjn⟩ := hmask j hj hm
    have hbit : (w.extractLsb' i n).getLsbD (j - i) = false := by simp [hfield]
    rw [BitVec.getLsbD_extractLsb', decide_eq_true (show j - i < n by omega), Bool.true_and, Nat.add_sub_cancel' hij] at hbit
    simp [hbit]

/-- A word that masks to something in the bits that format G reserves fails format G's check (R63). -/
theorem reservedClearG_eq_false {w : BitVec 32} (h : w &&& 0x0000FF00 ≠ 0) : reservedClearG w = false :=
  beq_eq_false_iff_ne.mpr fun hfield => h (and_mask_eq_zero_of_field (by decide) hfield)

/-- A word whose opcode is GFMUL's is decoded by format G (R66). -/
theorem decode_of_gfmul_opcode {w : BitVec 32} (h : opcField w = 0x20) : decode w = decodeG w .gfmul := by
  unfold decode
  rw [h]
  rfl

/-- The word of GFMUL (R63, R66). -/
theorem decode_formatG_gfmul (a b : BitVec 8) : decode (formatG b a 0x20) = .command (.gfmul a b) := by
  rw [decode_of_gfmul_opcode (opcField_formatG b a 0x20), decodeG, reservedClearG_formatG, aField_formatG, bField_formatG]
  rfl

/-- A word that the decoder rejects for a reserved bit answers E_ILLEGAL when the host presents it (R69, R70). -/
theorem Machine.rejectedForReservedBit_of_decode {w : BitVec 32} (h : decode w = .illegal .reservedBit) :
    RejectedForReservedBit w :=
  ⟨h, fun _ _ _ _ hp => step_of_illegal hp h⟩

end Sys2Proof
end

section
/-!
Proofs: the field product is additive in each operand, so that a law of products need only be checked on single bits
(40_gf_multiply.md rules R80 to R82), and O6 and O43 from it.
-/

namespace Sys2Proof.Machine

/-! ## Bits of a byte -/

/-- The low `n + 1` bits are the low `n` bits and bit `n`. -/
theorem setWidth_setWidth_succ_eq_xor {w : Nat} (x : BitVec w) (n : Nat) :
    (x.setWidth (n + 1)).setWidth w = (x.setWidth n).setWidth w ^^^ (if x.getLsbD n then BitVec.twoPow w n else 0) := by
  apply BitVec.eq_of_getLsbD_eq
  intro i hi
  obtain hlt | rfl | hgt := Nat.lt_trichotomy i n
  · cases x.getLsbD n <;> simp [hi, hlt, Nat.lt_succ_of_lt hlt, hlt.ne]
  · cases hx : x.getLsbD i <;> simp_all
  · cases x.getLsbD n <;> simp [hi, show ¬ i < n + 1 by omega, hgt.le, hgt.ne']

/-- Every byte is an exclusive-or of single bits. -/
theorem Byte.xor_induction {motive : Byte → Prop} (zero : motive 0)
    (xor : ∀ x y, motive x → motive y → motive (x ^^^ y)) (bit : ∀ i : Fin 8, motive (BitVec.twoPow 8 i)) (b : Byte) :
    motive b := by
  have hlow (n : Nat) (hn : n ≤ 8) : motive ((b.setWidth n).setWidth 8) := by
    induction n with
    | zero => simpa [BitVec.of_length_zero] using zero
    | succ n ih =>
      rw [setWidth_setWidth_succ_eq_xor]
      refine xor _ _ (ih (by omega)) ?_
      split
      · exact bit ⟨n, hn⟩
      · exact zero
  simpa using hlow 8 le_rfl

/-! ## Additivity -/

theorem gfMulLoop_xor_right (n : Nat) (a b c : Byte) :
    gfMulLoop n 0 a (b ^^^ c) = gfMulLoop n 0 a b ^^^ gfMulLoop n 0 a c := by
  induction n generalizing a b c with
  | zero => exact (BitVec.xor_self).symm
  | succ n ih =>
    rw [gfMulLoop_succ, gfMulLoop_succ, gfMulLoop_succ, BitVec.ushiftRight_xor_distrib, ih, xor_xor_xor_comm, BitVec.getLsbD_xor]
    cases b.getLsbD 0 <;> cases c.getLsbD 0 <;> simp

theorem gfMulLoop_xor_left (n : Nat) (a b c : Byte) :
    gfMulLoop n 0 (a ^^^ b) c = gfMulLoop n 0 a c ^^^ gfMulLoop n 0 b c := by
  induction n generalizing a b c with
  | zero => exact (BitVec.xor_self).symm
  | succ n ih =>
    rw [gfMulLoop_succ, gfMulLoop_succ, gfMulLoop_succ, xtime_xor, ih, xor_xor_xor_comm]
    cases c.getLsbD 0 <;> simp

/-- The product distributes over exclusive-or in its second operand (R81). -/
theorem gfMul_xor (a b c : Byte) : gfMul a (b ^^^ c) = gfMul a b ^^^ gfMul a c := gfMulLoop_xor_right 8 a b c

/-- The product distributes over exclusive-or in its first operand (R81). -/
theorem xor_gfMul (a b c : Byte) : gfMul (a ^^^ b) c = gfMul a c ^^^ gfMul b c := gfMulLoop_xor_left 8 a b c

/-! ## Zero, one, two and the order of the operands -/

/-- Once the multiplier is used up, the passes that remain add nothing. -/
theorem gfMulLoop_zero_right (n : Nat) (a : Byte) : gfMulLoop n 0 a 0 = 0 := by
  induction n generalizing a with
  | zero => rfl
  | succ n ih =>
    rw [gfMulLoop_succ, show (0 : Byte) >>> 1 = 0 from rfl, ih]
    exact BitVec.xor_zero

theorem gfMul_zero (a : Byte) : gfMul a 0 = 0 := gfMulLoop_zero_right 8 a

theorem zero_gfMul (b : Byte) : gfMul 0 b = 0 := by
  have h : gfMul 0 b = gfMul 0 b ^^^ gfMul 0 b := xor_gfMul 0 0 b
  rwa [BitVec.xor_self] at h

theorem gfMul_one (a : Byte) : gfMul a 1 = a := by
  rw [gfMul, gfMulLoop_succ, show (1 : Byte) >>> 1 = 0 from rfl, gfMulLoop_zero_right]
  exact BitVec.xor_zero

/-- Multiplication by 2 is one shift step (R82). -/
theorem gfMul_two (a : Byte) : gfMul a 2 = xtime a := by
  rw [gfMul, gfMulLoop_succ, gfMulLoop_succ, show (2 : Byte) >>> 1 >>> 1 = 0 from rfl, gfMulLoop_zero_right]
  exact BitVec.zero_xor.trans BitVec.xor_zero

/-- The operand order does not matter (R81): additivity leaves the products of single bits. -/
theorem gfMul_comm (a b : Byte) : gfMul a b = gfMul b a := by
  have hbits : ∀ i j : Fin 8, gfMul (BitVec.twoPow 8 i) (BitVec.twoPow 8 j) = gfMul (BitVec.twoPow 8 j) (BitVec.twoPow 8 i) := by
    decide
  induction a using Byte.xor_induction with
  | zero => rw [gfMul_zero, zero_gfMul]
  | xor x y hx hy => rw [gfMul_xor, xor_gfMul, hx, hy]
  | bit i =>
    induction b using Byte.xor_induction with
    | zero => rw [gfMul_zero, zero_gfMul]
    | xor x y hx hy => rw [gfMul_xor, xor_gfMul, hx, hy]
    | bit j => exact hbits i j

theorem one_gfMul (b : Byte) : gfMul 1 b = b := by rw [gfMul_comm, gfMul_one]

/-! ## GFMUL -/

theorem execGfmul_eq (a b : Byte) (s : State) : execGfmul a b s = .next (s.afterSuccess (busOfByte (gfMul a b))) :=
  complete_eq _ s

/-- The low byte of a byte on the response bus is the byte. -/
theorem extractLsb'_busOfByte_low (x : Byte) : (busOfByte x).extractLsb' 0 8 = x := by
  apply BitVec.eq_of_getLsbD_eq
  intro i hi
  simp [busOfByte, hi, show i < 128 by omega]

/-- A byte on the response bus leaves the bits above it zero. -/
theorem extractLsb'_busOfByte_high (x : Byte) : (busOfByte x).extractLsb' 8 120 = 0 := by
  apply BitVec.eq_of_getLsbD_eq
  intro i hi
  simp [busOfByte]

/-- Settles O6: GFMUL's words by format G, its answer by `execGfmul_eq`, and the laws of the product by additivity. -/
theorem gfmulCommand : Obligations.GfmulCommand := by
  unfold Obligations.GfmulCommand
  refine ⟨decode_formatG_gfmul, fun w hopc hreserved => ?_, fun a b s => ?_, fun b => ⟨zero_gfMul b, gfMul_zero b, one_gfMul b⟩,
    gfMul_comm, by decide, by decide, by decide, decode_formatG_gfmul 0x57 0x83, fun s => ?_⟩
  · have hfield : opcField w = 0x20 := BitVec.eq_of_toNat_eq ((opcField_eq_iff w 0x20 (by decide)).mpr hopc)
    apply rejectedForReservedBit_of_decode
    rw [decode_of_gfmul_opcode hfield, decodeG, reservedClearG_eq_false hreserved]
    rfl
  · exact ⟨_, extractLsb'_busOfByte_low _, extractLsb'_busOfByte_high _, execGfmul_eq a b s⟩
  · have hproduct : busOfByte (gfMul 0x57 0x83) = 0xc1 := by decide
    exact hproduct ▸ execGfmul_eq 0x57 0x83 s

/-- Settles O43: each factor is an exclusive-or of powers of 2, and the product distributes over it. -/
theorem gfMulByMatrixFactors : Obligations.GfMulByMatrixFactors := by
  unfold Obligations.GfMulByMatrixFactors
  refine fun a => ⟨(gfMul_two a).trans (xtime_eq a), ?_, ?_, ?_, ?_, ?_⟩
  · rw [show (0x03 : Byte) = 0x02 ^^^ 1 from rfl, gfMul_xor, gfMul_one]
  · rw [show (0x09 : Byte) = 0x08 ^^^ 1 from rfl, gfMul_xor, gfMul_one]
  · rw [show (0x0b : Byte) = 0x08 ^^^ 0x02 ^^^ 1 from rfl, gfMul_xor, gfMul_xor, gfMul_one]
  · rw [show (0x0d : Byte) = 0x08 ^^^ 0x04 ^^^ 1 from rfl, gfMul_xor, gfMul_xor, gfMul_one]
  · rw [show (0x0e : Byte) = 0x08 ^^^ 0x04 ^^^ 0x02 from rfl, gfMul_xor, gfMul_xor]

end Sys2Proof.Machine
end

section
/-!
Proofs: the words of the expanded key (41_key_schedule.md rules R92 to R94), and O45 and O46 from it.
-/

namespace Sys2Proof.Machine

/-- Settles O45: byte by byte, and the two examples by evaluation. -/
theorem wordRotationAndSubstitution : Obligations.WordRotationAndSubstitution := by
  unfold Obligations.WordRotationAndSubstitution
  exact ⟨fun _ _ _ _ => rfl, fun _ _ _ _ => rfl, rfl, by decide⟩

/-- The first eight words of the expanded key are the key (R94). -/
theorem getElem_expandKey_of_lt (key : Key) {i : Nat} (hi : i < 8) : (expandKey key)[i] = key[i] := by
  rw [getElem_expandKey, expandWords, getD_extendWords_of_lt _ _ _ (by simpa using hi)]
  simp [hi]

/-- Each later word is the sum of the word eight before it and what the word before it becomes (R94). -/
theorem getElem_expandKey_of_ge (key : Key) {i : Nat} (h8 : 8 ≤ i) (hi : i < 60) :
    (expandKey key)[i] = ((expandKey key)[i - 8]).xor (scheduleTemp i (expandKey key)[i - 1]) := by
  have hnext : (expandWords key).getD i Word.zero = nextWord ((expandWords key).take i) :=
    getD_extendWords_of_ge 52 key.toList i (by simpa using h8) (by simpa using hi)
  have htake {j : Nat} (hj : j < i) : ((expandWords key).take i).getD j Word.zero = (expandWords key).getD j Word.zero := by
    simp [List.getD_eq_getElem?_getD, List.getElem?_take_of_lt hj]
  have hlen : ((expandWords key).take i).length = i := by
    rw [List.length_take, expandWords_length, min_eq_left hi.le]
  rw [getElem_expandKey, getElem_expandKey, getElem_expandKey, hnext, nextWord, hlen, htake (by omega), htake (by omega)]

/-- Settles O46: `getElem_expandKey_of_lt` and `getElem_expandKey_of_ge`, with `scheduleTemp` written out. -/
theorem expandedKeyRecurrence : Obligations.ExpandedKeyRecurrence := by
  unfold Obligations.ExpandedKeyRecurrence
  exact fun key => ⟨fun i => getElem_expandKey_of_lt key i.isLt, fun i h8 hi => getElem_expandKey_of_ge key h8 hi⟩

end Sys2Proof.Machine
end

section
/-!
Proofs: the words of KEYEXP and RDRK (30_encoding.md rules R62, R64 and R66), legal and with a reserved bit set.
-/

namespace Sys2Proof

/-- The opcode field of a word is its low byte (R60). -/
theorem opcField_of_and_0xFF {w : BitVec 32} {o : BitVec 8} (h : w &&& 0xFF = BitVec.ofNat 32 o.toNat) : opcField w = o :=
  BitVec.eq_of_toNat_eq ((opcField_eq_iff w _ o.isLt).mpr h)

/-- A word that masks to something in the bits that format K reserves fails format K's check (R62). -/
theorem reservedClearK_eq_false {w : BitVec 32} (h : w &&& 0xFFFFF000 ≠ 0) : reservedClearK w = false :=
  beq_eq_false_iff_ne.mpr fun hfield => h (and_mask_eq_zero_of_field (by decide) hfield)

/-- A word that masks to something in the bits that format L reserves fails format L's check, in the high byte or in the byte
that formats L and G both reserve (R64). -/
theorem reservedClearL_eq_false {w : BitVec 32} (h : w &&& 0xFF00FF00 ≠ 0) : reservedClearL w = false := by
  rw [← Bool.not_eq_true, reservedClearL_iff]
  rintro ⟨hhigh, hmid⟩
  have hhigh0 : w &&& 0xFF000000 = 0 := and_mask_eq_zero_of_field (by decide) hhigh
  have hmid0 : w &&& 0x0000FF00 = 0 := and_mask_eq_zero_of_field (by decide) (beq_iff_eq.mp hmid)
  apply h
  rw [show (0xFF00FF00 : BitVec 32) = 0xFF000000 ||| 0x0000FF00 from rfl, BitVec.and_or_distrib_left, hhigh0, hmid0]
  rfl

/-- A word whose opcode is KEYEXP's is decoded by format L (R66). -/
theorem decode_of_keyexp_opcode {w : BitVec 32} (h : opcField w = 0x01) : decode w = decodeL w .keyexp := by
  unfold decode
  rw [h]
  rfl

/-- A word whose opcode is RDRK's is decoded by format K (R66). -/
theorem decode_of_rdrk_opcode {w : BitVec 32} (h : opcField w = 0x02) : decode w = decodeK w .rdrk := by
  unfold decode
  rw [h]
  rfl

/-- The word of KEYEXP (R64, R66). -/
theorem decode_formatL_keyexp (l : BitVec 8) : decode (formatL l 0x01) = .command (.keyexp l.toNat) := by
  rw [decode_of_keyexp_opcode (opcField_formatL l 0x01), decodeL, reservedClearL_formatL, lField_formatL]
  rfl

/-- The word of RDRK (R62, R66). -/
theorem decode_formatK_rdrk (k : BitVec 4) : decode (formatK k 0x02) = .command (.rdrk k.toNat) := by
  rw [decode_of_rdrk_opcode (opcField_formatK k 0x02), decodeK, reservedClearK_formatK, kField_formatK]
  rfl

/-- A word with KEYEXP's opcode and a reserved bit set is rejected (R70). -/
theorem rejectedForReservedBit_keyexp {w : BitVec 32} (hopc : w &&& 0xFF = 0x01) (hreserved : w &&& 0xFF00FF00 ≠ 0) :
    Machine.RejectedForReservedBit w := by
  apply Machine.rejectedForReservedBit_of_decode
  rw [decode_of_keyexp_opcode (opcField_of_and_0xFF hopc), decodeL, reservedClearL_eq_false hreserved]
  rfl

/-- A word with RDRK's opcode and a reserved bit set is rejected (R70). -/
theorem rejectedForReservedBit_rdrk {w : BitVec 32} (hopc : w &&& 0xFF = 0x02) (hreserved : w &&& 0xFFFFF000 ≠ 0) :
    Machine.RejectedForReservedBit w := by
  apply Machine.rejectedForReservedBit_of_decode
  rw [decode_of_rdrk_opcode (opcField_of_and_0xFF hopc), decodeK, reservedClearK_eq_false hreserved]
  rfl

end Sys2Proof
end

section
/-!
Proofs: round keys as groups of four words (10_state.md rule R22), the first two of an expanded key (41_key_schedule.md rule R95),
and O1 and O2 from them.
-/

namespace Sys2Proof.Machine

/-- Byte `r` of column `c` of round key `k` is that of word `4k + c` (R22). -/
theorem byte_roundKey (rk : RoundKeyFile) (k : Fin 15) (c r : Fin 4) :
    (roundKey rk k).byte c r = (rk[4 * k.val + c.val]).byte r :=
  match c with
  | 0 => rfl
  | 1 => rfl
  | 2 => rfl
  | 3 => rfl

/-- The first two round keys hold the bytes of the master key (R42, R95). -/
theorem byte_roundKey_expandKey (v : BitVec 256) {k : Fin 15} (hk : k.val < 2) (c r : Fin 4) :
    (roundKey (expandKey (keyOfBus v)) k).byte c r = v.extractLsb' (248 - 8 * (4 * (4 * k.val + c.val) + r.val)) 8 := by
  have hword : (keyOfBus v)[4 * k.val + c.val] = keyWordOfBus v (4 * k.val + c.val) :=
    getElem_keyOfBus v ⟨4 * k.val + c.val, by omega⟩
  rw [byte_roundKey, getElem_expandKey_of_lt _ (by omega), hword, keyWordOfBus, Word.byte_ofBytes]

/-- The first two round keys on the bus are the halves of the master key (R95). -/
theorem busOfBlock_roundKey_expandKey (v : BitVec 256) {k : Fin 15} (hk : k.val < 2) :
    busOfBlock (roundKey (expandKey (keyOfBus v)) k) = v.extractLsb' (128 - 128 * k.val) 128 := by
  refine bus_ext fun c r => ?_
  rw [extractLsb'_byte_busOfBlock, byte_roundKey_expandKey v hk, extractLsb'_extractLsb'_of_add_le _ (by omega)]
  congr 1
  omega

/-- RDRK without a key is E_NOKEY (R97, R166). -/
theorem execRdrk_of_noKey (k : Fin 15) {s : State} (h : s.KV = false) : execRdrk k s = .next (s.afterError 2) :=
  requireRoundKey_of_noKey k.isLt h fun t => complete (busOfBlock t) s

/-- RDRK with a round index above 14 is E_INDEX (R97, R167). -/
theorem execRdrk_of_index {k : Nat} (h : 15 ≤ k) (s : State) : execRdrk k s = .next (s.afterError 4) :=
  requireRoundKey_of_index h s fun t => complete (busOfBlock t) s

/-- RDRK 0 and RDRK 1 answer the halves of the loaded master key (R97). -/
theorem execRdrk_of_expandKey {v : BitVec 256} {k : Fin 15} (hk : k.val < 2) {s : State} (hkv : s.KV = true)
    (hrk : s.RK = expandKey (keyOfBus v)) :
    execRdrk k s = .next (s.afterSuccess (v.extractLsb' (128 - 128 * k.val) 128)) := by
  rw [execRdrk_of_key k hkv, hrk, busOfBlock_roundKey_expandKey v hk]

/-- Words 8 to 11 of the expansion of R96's key, as the round key that R97's example answers. -/
theorem roundKey_two_expandKey_example :
    roundKey (expandKey (keyOfBus 0x000102030405060708090a0b0c0d0e0f101112131415161718191a1b1c1d1e1f)) 2 =
      ⟨⟨0xa5, 0x73, 0xc2, 0x9f⟩, ⟨0xa1, 0x76, 0xc4, 0x98⟩, ⟨0xa9, 0x7f, 0xce, 0x93⟩, ⟨0xa5, 0x72, 0xc0, 0x9c⟩⟩ := by
  decide +kernel

/-- The last word of the expansion of R96's key. -/
theorem getElem_59_expandKey_example :
    (expandKey (keyOfBus 0x000102030405060708090a0b0c0d0e0f101112131415161718191a1b1c1d1e1f))[59] =
      ⟨0x6d, 0x68, 0xde, 0x36⟩ := by
  decide +kernel

/-- Settles O1: KEYEXP's words by format L, its two outcomes by `execKeyexp_of_length` and `execKeyexp_of_other`. -/
theorem keyexpCommand : Obligations.KeyexpCommand := by
  unfold Obligations.KeyexpCommand
  refine ⟨decode_formatL_keyexp, fun w => rejectedForReservedBit_keyexp, execKeyexp_of_length, fun l s hl => ?_, fun s hkin => ?_⟩
  · exact execKeyexp_of_other (fun h => hl (BitVec.eq_of_toNat_eq h)) s
  · refine ⟨_, execKeyexp_of_length s, ?_⟩
    rw [hkin]
    exact ⟨congrArg Block.c0 roundKey_two_expandKey_example, getElem_59_expandKey_example⟩

/-- Settles O2: RDRK's words by format K, its errors by the check on the round index, and its answers by `execRdrk_of_key`. -/
theorem rdrkCommand : Obligations.RdrkCommand := by
  unfold Obligations.RdrkCommand
  refine ⟨decode_formatK_rdrk, fun w => rejectedForReservedBit_rdrk, fun k s hkv => ?_, fun k s hkv => ?_, fun s => ?_,
    fun v s hkv hrk => ⟨?_, ?_⟩, fun s hkv hrk => ?_⟩
  · refine ⟨_, execRdrk_of_key k hkv, fun c r => ?_⟩
    rw [extractLsb'_byte_busOfBlock, byte_roundKey]
  · exact execRdrk_of_noKey k hkv
  · exact execRdrk_of_index le_rfl s
  · exact execRdrk_of_expandKey (k := 0) (by decide) hkv hrk
  · exact execRdrk_of_expandKey (k := 1) (by decide) hkv hrk
  · have hanswer := execRdrk_of_key 2 hkv
    rw [hrk, roundKey_two_expandKey_example] at hanswer
    exact hanswer

end Sys2Proof.Machine
end

section
/-!
Proofs: the words of the commands of format N (30_encoding.md rules R61 and R66), and of ARK (R62), legal and with a reserved bit
set.
-/

namespace Sys2Proof

/-- The commands without an operand, whose words are of format N (R61, R66). -/
def Instr.isFormatN (i : Instr) : Bool :=
  match i with
  | .lds | .rds | .rdstat | .sub | .invsub | .shr | .invshr | .mix | .invmix | .enc | .dec => true
  | .keyexp _ | .rdrk _ | .gfmul _ _ | .ark _ => false

/-- A word with the opcode of a format N command is decoded by format N (R66). -/
theorem decode_of_formatN_opcode {i : Instr} (hi : i.isFormatN = true) {w : BitVec 32} (h : opcField w = opcField (encode i)) :
    decode w = decodeN w i := by
  cases i with
  | keyexp | rdrk | gfmul | ark => cases hi
  | lds | rds | rdstat | sub | invsub | shr | invshr | mix | invmix | enc | dec =>
    unfold decode
    rw [h]
    rfl

/-- Masking a word to its low byte leaves its opcode field. -/
theorem opcField_and_0xFF (w : BitVec 32) : opcField (w &&& 0xFF) = opcField w := by
  rw [and_0xFF_eq_ofNat_opcField, opcField_of_and_0xFF]
  rw [← and_0xFF_eq_ofNat_opcField, BitVec.and_assoc, BitVec.and_self]

/-- A word that masks to something in the bits that format N reserves fails format N's check (R61). -/
theorem reservedClearN_eq_false {w : BitVec 32} (h : w &&& 0xFFFFFF00 ≠ 0) : reservedClearN w = false :=
  beq_eq_false_iff_ne.mpr fun hfield => h (and_mask_eq_zero_of_field (by decide) hfield)

/-- A word with the opcode of a format N command and a reserved bit set is rejected (R70). -/
theorem rejectedForReservedBit_formatN {i : Instr} (hi : i.isFormatN = true) {w : BitVec 32} (hopc : w &&& 0xFF = encode i)
    (hreserved : w &&& 0xFFFFFF00 ≠ 0) : Machine.RejectedForReservedBit w := by
  apply Machine.rejectedForReservedBit_of_decode
  rw [decode_of_formatN_opcode hi (by rw [← hopc, opcField_and_0xFF]), decodeN, reservedClearN_eq_false hreserved]
  rfl

/-- A word whose opcode is ARK's is decoded by format K (R66). -/
theorem decode_of_ark_opcode {w : BitVec 32} (h : opcField w = 0x36) : decode w = decodeK w .ark := by
  unfold decode
  rw [h]
  rfl

/-- The word of ARK (R62, R66). -/
theorem decode_formatK_ark (k : BitVec 4) : decode (formatK k 0x36) = .command (.ark k.toNat) := by
  rw [decode_of_ark_opcode (opcField_formatK k 0x36), decodeK, reservedClearK_formatK, kField_formatK]
  rfl

/-- A word with ARK's opcode and a reserved bit set is rejected (R70). -/
theorem rejectedForReservedBit_ark {w : BitVec 32} (hopc : w &&& 0xFF = 0x36) (hreserved : w &&& 0xFFFFF000 ≠ 0) :
    Machine.RejectedForReservedBit w := by
  apply Machine.rejectedForReservedBit_of_decode
  rw [decode_of_ark_opcode (opcField_of_and_0xFF hopc), decodeK, reservedClearK_eq_false hreserved]
  rfl

end Sys2Proof
end

section
/-!
Proofs: what the round transformations do byte by byte and column by column, which of them undo each other
(42_round_transforms.md rules R113 to R119), and O49 from it.
-/

namespace Sys2Proof.Machine

/-! ## The bytes of a transformed block -/

@[simp] theorem byte_blockFill (x : Byte) (c r : Fin 4) : (blockFill x).byte c r = x := Block.byte_ofBytes _ c r

@[simp] theorem byte_subBytes (b : Block) (c r : Fin 4) : (subBytes b).byte c r = sbox (b.byte c r) := Block.byte_ofBytes _ c r

@[simp] theorem byte_invSubBytes (b : Block) (c r : Fin 4) : (invSubBytes b).byte c r = invSbox (b.byte c r) :=
  Block.byte_ofBytes _ c r

@[simp] theorem byte_shiftRows (b : Block) (c r : Fin 4) : (shiftRows b).byte c r = b.byte (c + r) r := Block.byte_ofBytes _ c r

@[simp] theorem byte_invShiftRows (b : Block) (c r : Fin 4) : (invShiftRows b).byte c r = b.byte (c - r) r :=
  Block.byte_ofBytes _ c r

@[simp] theorem col_mixColumns (b : Block) (c : Fin 4) : (mixColumns b).col c = matrixColumn mixMatrix (b.col c) :=
  Block.col_ofCols _ c

@[simp] theorem col_invMixColumns (b : Block) (c : Fin 4) : (invMixColumns b).col c = matrixColumn invMixMatrix (b.col c) :=
  Block.col_ofCols _ c

@[simp] theorem byte_addRoundKey (b t : Block) (c r : Fin 4) : (addRoundKey b t).byte c r = b.byte c r ^^^ t.byte c r :=
  Block.byte_ofBytes _ c r

/-! ## SubBytes -/

/-- The inverse table undoes the forward one, entry by entry (R112). -/
theorem invSbox_sbox (x : Byte) : invSbox (sbox x) = x := by
  revert x
  decide +kernel

/-- On finitely many bytes a left inverse is a right inverse (R112). -/
theorem sbox_invSbox (x : Byte) : sbox (invSbox x) = x :=
  have hinv : Function.LeftInverse invSbox sbox := invSbox_sbox
  hinv.rightInverse_of_surjective (Finite.surjective_of_injective hinv.injective) x

theorem invSubBytes_subBytes (b : Block) : invSubBytes (subBytes b) = b :=
  Block.ext_byte fun c r => by rw [byte_invSubBytes, byte_subBytes, invSbox_sbox]

theorem subBytes_invSubBytes (b : Block) : subBytes (invSubBytes b) = b :=
  Block.ext_byte fun c r => by rw [byte_subBytes, byte_invSubBytes, sbox_invSbox]

/-! ## ShiftRows -/

theorem invShiftRows_shiftRows (b : Block) : invShiftRows (shiftRows b) = b :=
  Block.ext_byte fun c r => by rw [byte_invShiftRows, byte_shiftRows, sub_add_cancel]

theorem shiftRows_invShiftRows (b : Block) : shiftRows (invShiftRows b) = b :=
  Block.ext_byte fun c r => by rw [byte_shiftRows, byte_invShiftRows, add_sub_cancel_right]

/-! ## MixColumns: the two matrices are inverse to each other over the field -/

/-- The product is associative (R81): additivity leaves the products of single bits. -/
theorem gfMul_assoc (a b c : Byte) : gfMul (gfMul a b) c = gfMul a (gfMul b c) := by
  have hbits : ∀ i j k : Fin 8, gfMul (gfMul (BitVec.twoPow 8 i) (BitVec.twoPow 8 j)) (BitVec.twoPow 8 k) =
      gfMul (BitVec.twoPow 8 i) (gfMul (BitVec.twoPow 8 j) (BitVec.twoPow 8 k)) := by decide +kernel
  induction a using Byte.xor_induction with
  | zero => simp only [zero_gfMul]
  | xor x y hx hy => simp only [xor_gfMul, hx, hy]
  | bit i =>
    induction b using Byte.xor_induction with
    | zero => simp only [zero_gfMul, gfMul_zero]
    | xor x y hx hy => simp only [xor_gfMul, gfMul_xor, hx, hy]
    | bit j =>
      induction c using Byte.xor_induction with
      | zero => simp only [gfMul_zero]
      | xor x y hx hy => simp only [gfMul_xor, hx, hy]
      | bit k => exact hbits i j k

/-- The product of two 4 by 4 matrices over GF(2^8). -/
def matrixProduct (m n : Fin 4 → Fin 4 → Byte) (r j : Fin 4) : Byte :=
  gfMul (m r 0) (n 0 j) ^^^ gfMul (m r 1) (n 1 j) ^^^ gfMul (m r 2) (n 2 j) ^^^ gfMul (m r 3) (n 3 j)

/-- The identity matrix over GF(2^8). -/
def identityMatrix (r j : Fin 4) : Byte := if r = j then 1 else 0

/-- Multiplying a column by two matrices is multiplying it by their product. -/
theorem matrixColumn_matrixColumn (m n : Fin 4 → Fin 4 → Byte) (w : Word) :
    matrixColumn m (matrixColumn n w) = matrixColumn (matrixProduct m n) w := by
  refine Word.ext_byte fun r => ?_
  simp only [matrixColumn, matrixProduct, Word.byte_ofBytes, gfMul_xor, xor_gfMul, gfMul_assoc]
  ac_rfl

theorem matrixColumn_identityMatrix (w : Word) : matrixColumn identityMatrix w = w := by
  refine Word.ext_byte fun r => ?_
  have hterm (j : Fin 4) : gfMul (identityMatrix r j) (w.byte j) = if r = j then w.byte j else 0 := by
    unfold identityMatrix
    split
    · exact one_gfMul _
    · exact zero_gfMul _
  rw [matrixColumn, Word.byte_ofBytes, hterm, hterm, hterm, hterm]
  fin_cases r <;> simp

theorem invMixMatrix_mixMatrix : matrixProduct invMixMatrix mixMatrix = identityMatrix := by
  funext r j
  revert r j
  decide +kernel

theorem mixMatrix_invMixMatrix : matrixProduct mixMatrix invMixMatrix = identityMatrix := by
  funext r j
  revert r j
  decide +kernel

theorem invMixColumns_mixColumns (b : Block) : invMixColumns (mixColumns b) = b :=
  Block.ext_col fun c => by
    rw [col_invMixColumns, col_mixColumns, matrixColumn_matrixColumn, invMixMatrix_mixMatrix, matrixColumn_identityMatrix]

theorem mixColumns_invMixColumns (b : Block) : mixColumns (invMixColumns b) = b :=
  Block.ext_col fun c => by
    rw [col_mixColumns, col_invMixColumns, matrixColumn_matrixColumn, mixMatrix_invMixMatrix, matrixColumn_identityMatrix]

/-- A matrix whose rows sum to one leaves a column of four equal bytes as it is (R124, R125). -/
theorem byte_matrixColumn_of_equal_bytes {m : Fin 4 → Fin 4 → Byte} (hm : ∀ r, m r 0 ^^^ m r 1 ^^^ m r 2 ^^^ m r 3 = 1)
    {w : Word} {x : Byte} (hw : ∀ r, w.byte r = x) (r : Fin 4) : (matrixColumn m w).byte r = x := by
  rw [matrixColumn, Word.byte_ofBytes, hw, hw, hw, hw, ← xor_gfMul, ← xor_gfMul, ← xor_gfMul, hm, one_gfMul]

theorem mixMatrix_row_sum : ∀ r, mixMatrix r 0 ^^^ mixMatrix r 1 ^^^ mixMatrix r 2 ^^^ mixMatrix r 3 = 1 := by decide

theorem invMixMatrix_row_sum : ∀ r, invMixMatrix r 0 ^^^ invMixMatrix r 1 ^^^ invMixMatrix r 2 ^^^ invMixMatrix r 3 = 1 := by
  decide

theorem byte_mixColumns_of_equal_bytes {b : Block} {c : Fin 4} {x : Byte} (h : ∀ r, b.byte c r = x) (r : Fin 4) :
    (mixColumns b).byte c r = x := by
  rw [Block.byte, col_mixColumns]
  exact byte_matrixColumn_of_equal_bytes mixMatrix_row_sum h r

theorem byte_invMixColumns_of_equal_bytes {b : Block} {c : Fin 4} {x : Byte} (h : ∀ r, b.byte c r = x) (r : Fin 4) :
    (invMixColumns b).byte c r = x := by
  rw [Block.byte, col_invMixColumns]
  exact byte_matrixColumn_of_equal_bytes invMixMatrix_row_sum h r

/-! ## AddRoundKey -/

theorem addRoundKey_addRoundKey (b t : Block) : addRoundKey (addRoundKey b t) t = b :=
  Block.ext_byte fun c r => by
    rw [byte_addRoundKey, byte_addRoundKey, BitVec.xor_assoc, BitVec.xor_self]
    exact BitVec.xor_zero

theorem addRoundKey_blockFill_zero (b : Block) : addRoundKey b (blockFill 0) = b :=
  Block.ext_byte fun c r => by
    rw [byte_addRoundKey, byte_blockFill]
    exact BitVec.xor_zero

/-- Settles O49: each pair byte by byte or column by column, and the bijections from the pairs. -/
theorem inverseTransformationLaws : Obligations.InverseTransformationLaws := by
  unfold Obligations.InverseTransformationLaws
  have bijective {f g : Block → Block} (hgf : ∀ b, g (f b) = b) (hfg : ∀ b, f (g b) = b) : Function.Bijective f :=
    Function.bijective_iff_has_inverse.mpr ⟨g, hgf, hfg⟩
  exact ⟨fun b => ⟨invSubBytes_subBytes b, subBytes_invSubBytes b⟩,
    fun b => ⟨invShiftRows_shiftRows b, shiftRows_invShiftRows b⟩,
    fun b => ⟨invMixColumns_mixColumns b, mixColumns_invMixColumns b⟩,
    addRoundKey_addRoundKey,
    bijective invSubBytes_subBytes subBytes_invSubBytes, bijective subBytes_invSubBytes invSubBytes_subBytes,
    bijective invShiftRows_shiftRows shiftRows_invShiftRows, bijective shiftRows_invShiftRows invShiftRows_shiftRows,
    bijective invMixColumns_mixColumns mixColumns_invMixColumns, bijective mixColumns_invMixColumns invMixColumns_mixColumns,
    fun t => bijective (addRoundKey_addRoundKey · t) (addRoundKey_addRoundKey · t)⟩

end Sys2Proof.Machine
end

section
/-!
Proofs: the commands that apply a round transformation to `S` (42_round_transforms.md rules R120 to R126), and O7 to O13 from
them.
-/

namespace Sys2Proof.Machine

/-! ## A command that applies a function to `S` -/

/-- Two commands in a row, the second from where the first leads. -/
theorem execAll_pair {i j : Instr} {s t u : State} (hi : exec i s = .next t) (hj : exec j t = .next u) :
    execAll [i, j] s = .next u := by
  simp only [execAll, hi, hj]

/-- The command `i` replaces `S` by `f S` and completes, and changes nothing else but `LAST_ERR`. -/
def AppliesToS (i : Instr) (f : Block → Block) : Prop :=
  ∀ s : State, exec i s = .next ({ s with S := f s.S }.afterSuccess 0)

section
variable {i j : Instr} {f g : Block → Block}

theorem AppliesToS.exec_of_S (hi : AppliesToS i f) {x y : Block} (hxy : f x = y) (s : State) (hs : s.S = x) :
    exec i s = .next ({ s with S := y }.afterSuccess 0) := by
  rw [hi s, hs, hxy]

theorem AppliesToS.exec_of_fixed (hi : AppliesToS i f) {s : State} (hs : f s.S = s.S) : exec i s = .next (s.afterSuccess 0) :=
  hi.exec_of_S hs s rfl

theorem AppliesToS.execAll_undo (hi : AppliesToS i f) (hj : AppliesToS j g) (hgf : ∀ b, g (f b) = b) (s : State) :
    ∃ t, execAll [i, j] s = .next t ∧ t.S = s.S :=
  ⟨_, execAll_pair (hi s) (hj _), hgf s.S⟩

end

/-! ## The six transformations without a key -/

theorem sub_appliesToS : AppliesToS .sub subBytes := fun _ => rfl
theorem invsub_appliesToS : AppliesToS .invsub invSubBytes := fun _ => rfl
theorem shr_appliesToS : AppliesToS .shr shiftRows := fun _ => rfl
theorem invshr_appliesToS : AppliesToS .invshr invShiftRows := fun _ => rfl
theorem mix_appliesToS : AppliesToS .mix mixColumns := fun _ => rfl
theorem invmix_appliesToS : AppliesToS .invmix invMixColumns := fun _ => rfl

/-- Settles O7: SUB applies `subBytes`; the corner cases and the example by evaluation. -/
theorem subCommand : Obligations.SubCommand := by
  unfold Obligations.SubCommand
  exact ⟨by decide, fun w => rejectedForReservedBit_formatN (i := .sub) rfl,
    fun s => ⟨_, byte_subBytes s.S, sub_appliesToS s⟩,
    sub_appliesToS.exec_of_S (by decide +kernel), sub_appliesToS.exec_of_S (by decide +kernel),
    sub_appliesToS.exec_of_S (by decide +kernel)⟩

/-- Settles O8: INVSUB applies `invSubBytes`, which undoes `subBytes` and is undone by it. -/
theorem invsubCommand : Obligations.InvsubCommand := by
  unfold Obligations.InvsubCommand
  refine ⟨by decide, fun w => rejectedForReservedBit_formatN (i := .invsub) rfl,
    fun s => ⟨_, byte_invSubBytes s.S, invsub_appliesToS s⟩, fun s => ?_,
    invsub_appliesToS.exec_of_S (by decide +kernel), invsub_appliesToS.exec_of_S (by decide +kernel)⟩
  obtain ⟨t, ht, htS⟩ := sub_appliesToS.execAll_undo invsub_appliesToS invSubBytes_subBytes s
  obtain ⟨u, hu, huS⟩ := invsub_appliesToS.execAll_undo sub_appliesToS subBytes_invSubBytes s
  exact ⟨t, u, ht, htS, hu, huS⟩

/-- Settles O9: SHR applies `shiftRows`, whose index `c + r` on `Fin 4` is the sum modulo 4. -/
theorem shrCommand : Obligations.ShrCommand := by
  unfold Obligations.ShrCommand
  refine ⟨by decide, fun w => rejectedForReservedBit_formatN (i := .shr) rfl,
    fun s => ⟨_, fun c c' r hc => ?_, shr_appliesToS s⟩, fun s => ⟨_, shr_appliesToS s, fun c => ?_⟩,
    fun x s hs => shr_appliesToS.exec_of_fixed (Block.ext_byte fun c r => ?_), shr_appliesToS.exec_of_S (by decide +kernel)⟩
  · have hidx : c + r = c' := Fin.ext ((Fin.val_add c r).trans hc.symm)
    rw [byte_shiftRows, hidx]
  · rw [State.afterSuccess_S, byte_shiftRows, add_zero]
  · rw [byte_shiftRows, hs, byte_blockFill, byte_blockFill]

/-- Settles O10: INVSHR applies `invShiftRows`, whose index `c - r` on `Fin 4` is the `c'` with `c' + r = c` modulo 4. -/
theorem invshrCommand : Obligations.InvshrCommand := by
  unfold Obligations.InvshrCommand
  refine ⟨by decide, fun w => rejectedForReservedBit_formatN (i := .invshr) rfl,
    fun s => ⟨_, fun c c' r hc => ?_, invshr_appliesToS s⟩,
    shr_appliesToS.execAll_undo invshr_appliesToS invShiftRows_shiftRows, invshr_appliesToS.exec_of_S (by decide +kernel)⟩
  have hidx : c' + r = c := Fin.ext ((Fin.val_add c' r).trans hc)
  rw [byte_invShiftRows, ← hidx, add_sub_cancel_right]

/-- Settles O11: MIX applies `mixColumns`, whose rows sum to one; the examples by evaluation of one column or block. -/
theorem mixCommand : Obligations.MixCommand := by
  unfold Obligations.MixCommand
  refine ⟨by decide, fun w => rejectedForReservedBit_formatN (i := .mix) rfl,
    fun s => ⟨_, fun c => ?_, mix_appliesToS s⟩,
    fun s c x hx => ⟨_, mix_appliesToS s, byte_mixColumns_of_equal_bytes hx⟩,
    fun s hs => mix_appliesToS.exec_of_fixed (Block.ext_byte fun c r => ?_),
    fun s c hc => ⟨_, mix_appliesToS s, ?_⟩, fun s c hc => ⟨_, mix_appliesToS s, ?_⟩,
    mix_appliesToS.exec_of_S (by decide +kernel)⟩
  · simp only [Block.byte, col_mixColumns]
    exact ⟨rfl, rfl, rfl, rfl⟩
  · rw [hs, byte_blockFill]
    exact byte_mixColumns_of_equal_bytes (byte_blockFill 0 c) r
  · rw [State.afterSuccess_S, col_mixColumns, hc]
    decide +kernel
  · rw [State.afterSuccess_S, col_mixColumns, hc]
    decide +kernel

/-- Settles O12: INVMIX applies `invMixColumns`, which undoes `mixColumns` and is undone by it, and whose rows sum to one. -/
theorem invmixCommand : Obligations.InvmixCommand := by
  unfold Obligations.InvmixCommand
  refine ⟨by decide, fun w => rejectedForReservedBit_formatN (i := .invmix) rfl,
    fun s => ⟨_, fun c => ?_, invmix_appliesToS s⟩, fun s => ?_,
    fun s c x hx => ⟨_, invmix_appliesToS s, byte_invMixColumns_of_equal_bytes hx⟩,
    fun s c hc => ⟨_, invmix_appliesToS s, ?_⟩, invmix_appliesToS.exec_of_S (by decide +kernel)⟩
  · simp only [Block.byte, col_invMixColumns]
    exact ⟨rfl, rfl, rfl, rfl⟩
  · obtain ⟨t, ht, htS⟩ := mix_appliesToS.execAll_undo invmix_appliesToS invMixColumns_mixColumns s
    obtain ⟨u, hu, huS⟩ := invmix_appliesToS.execAll_undo mix_appliesToS mixColumns_invMixColumns s
    exact ⟨t, u, ht, htS, hu, huS⟩
  · rw [State.afterSuccess_S, col_invMixColumns, hc]
    decide +kernel

/-! ## ARK -/

/-- ARK without a key is E_NOKEY (R126, R166). -/
theorem execArk_of_noKey (k : Fin 15) {s : State} (h : s.KV = false) : execArk k s = .next (s.afterError 2) :=
  requireRoundKey_of_noKey k.isLt h fun t => complete 0 (s.writeS (addRoundKey s.S t))

/-- ARK with a round index above 14 is E_INDEX (R126, R167). -/
theorem execArk_of_index {k : Nat} (h : 15 ≤ k) (s : State) : execArk k s = .next (s.afterError 4) :=
  requireRoundKey_of_index h s fun t => complete 0 (s.writeS (addRoundKey s.S t))

/-- Two ARKs with the same index restore `S`: the first leaves `RK` and `KV` to the second (R126, R127). -/
theorem execAll_ark_ark (k : Fin 15) {s : State} (h : s.KV = true) : ∃ t, execAll [.ark k, .ark k] s = .next t ∧ t.S = s.S := by
  have hfirst := execArk_of_key k h
  have hsecond := execArk_of_key k (s := { s with S := addRoundKey s.S (roundKey s.RK k) }.afterSuccess 0) h
  exact ⟨_, execAll_pair hfirst hsecond, addRoundKey_addRoundKey s.S (roundKey s.RK k)⟩

/-- Round key 0 of an expanded key is the first half of the master key (R95). -/
theorem roundKey_zero_expandKey (v : BitVec 256) : roundKey (expandKey (keyOfBus v)) 0 = blockOfBus (v.extractLsb' 128 128) := by
  rw [← blockOfBus_busOfBlock (roundKey _ 0), busOfBlock_roundKey_expandKey v (by decide)]
  rfl

/-- Settles O13: ARK's words by format K, its errors by the check on the round index, its effect by `execArk_of_key`. -/
theorem arkCommand : Obligations.ArkCommand := by
  unfold Obligations.ArkCommand
  refine ⟨decode_formatK_ark, fun w => rejectedForReservedBit_ark,
    fun k s hkv => ⟨_, fun c r => ?_, execArk_of_key k hkv⟩, fun k s => execArk_of_noKey k, execArk_of_index le_rfl,
    fun k s => execAll_ark_ark k, fun k s hkv hzero => ?_, fun s hkv hrk hs => ?_⟩
  · rw [byte_addRoundKey, byte_roundKey]
  · refine (execArk_of_key k hkv).trans ?_
    rw [hzero, addRoundKey_blockFill_zero]
  · have hkey : roundKey s.RK 0 = blockOfBus 0x000102030405060708090a0b0c0d0e0f := hrk ▸ roundKey_zero_expandKey _
    have hsum : addRoundKey (blockOfBus 0x00112233445566778899aabbccddeeff) (blockOfBus 0x000102030405060708090a0b0c0d0e0f) =
        blockOfBus 0x00102030405060708090a0b0c0d0e0f0 := by decide +kernel
    refine (execArk_of_key 0 hkv).trans ?_
    rw [hs, hkey, hsum]

end Sys2Proof.Machine
end

section
/-!
Proofs: the two round pipelines as sequences of states (43_pipelines.md rules R140 and R141), each of which undoes the other
(R144), and O51, O14 and O15 from them.
-/

namespace Sys2Proof.Machine

/-! ## The states between the rounds -/

/-- The state of the forward pipeline after full round `n`, and after the initial whitening for `n = 0` (R140). -/
def forwardState (p : Block) (rk : RoundKeyFile) (n : Nat) : Block :=
  (fullRounds.take n).foldl (fun st i => forwardRound st (roundKey rk i)) (addRoundKey p (roundKey rk 0))

/-- The state of the inverse pipeline after full round `n`, the rounds descending, and after the initial addition of round key
14 for `n = 14` (R141). -/
def inverseState (c : Block) (rk : RoundKeyFile) (n : Nat) : Block :=
  (fullRounds.reverse.take (14 - n)).foldl (fun st i => inverseRound st (roundKey rk i)) (addRoundKey c (roundKey rk 14))

theorem take_fullRounds : ∀ i : Fin 15, 1 ≤ i.val → i.val ≤ 13 →
    fullRounds.take i = fullRounds.take (i.val - 1) ++ [i] := by
  decide

theorem take_reverse_fullRounds : ∀ i : Fin 15, 1 ≤ i.val → i.val ≤ 13 →
    fullRounds.reverse.take (14 - i) = fullRounds.reverse.take (14 - (i.val + 1)) ++ [i] := by
  decide

theorem forwardState_eq_forwardRound (p : Block) (rk : RoundKeyFile) (i : Fin 15) (h1 : 1 ≤ i.val) (h13 : i.val ≤ 13) :
    forwardState p rk i = forwardRound (forwardState p rk (i.val - 1)) (roundKey rk i) := by
  rw [forwardState, take_fullRounds i h1 h13, List.foldl_concat, forwardState]

theorem inverseState_eq_inverseRound (c : Block) (rk : RoundKeyFile) (i : Fin 15) (h1 : 1 ≤ i.val) (h13 : i.val ≤ 13) :
    inverseState c rk i = inverseRound (inverseState c rk (i.val + 1)) (roundKey rk i) := by
  rw [inverseState, take_reverse_fullRounds i h1 h13, List.foldl_concat, inverseState]

theorem cipher_eq_finalRound (p : Block) (rk : RoundKeyFile) :
    cipher p rk = finalRound (forwardState p rk 13) (roundKey rk 14) := rfl

theorem invCipher_eq_finalInverseRound (c : Block) (rk : RoundKeyFile) :
    invCipher c rk = finalInverseRound (inverseState c rk 1) (roundKey rk 0) := rfl

/-- Settles O51: `forwardState` and `inverseState` are the sequences. -/
theorem pipelineRounds : Obligations.PipelineRounds := by
  unfold Obligations.PipelineRounds
  exact ⟨fun p rk => ⟨forwardState p rk, rfl, forwardState_eq_forwardRound p rk, cipher_eq_finalRound p rk⟩,
    fun c rk => ⟨inverseState c rk, rfl, inverseState_eq_inverseRound c rk, invCipher_eq_finalInverseRound c rk⟩⟩

/-! ## Each pipeline undoes the other -/

/-- If the step `g` undoes the step `f` with the same key, between states seen through `e`, then the steps `g` in reverse order
undo the steps `f`. -/
theorem foldl_reverse_foldl {α κ : Type} {f g : α → κ → α} {e : α → α} (h : ∀ b k, g (e (f b k)) k = e b) (ks : List κ)
    (b : α) : ks.reverse.foldl g (e (ks.foldl f b)) = e b := by
  induction ks generalizing b with
  | nil => rfl
  | cons k ks ih => rw [List.reverse_cons, List.foldl_concat, List.foldl_cons, ih, h]

/-- The byte substitution and the row shift of a round, which every forward round begins with (R140). -/
def subShift (b : Block) : Block := shiftRows (subBytes b)

/-- What every inverse round begins with (R141). -/
def invShiftSub (b : Block) : Block := invSubBytes (invShiftRows b)

theorem invShiftSub_subShift (b : Block) : invShiftSub (subShift b) = b := by
  rw [invShiftSub, subShift, invShiftRows_shiftRows, invSubBytes_subBytes]

theorem subShift_invShiftSub (b : Block) : subShift (invShiftSub b) = b := by
  rw [subShift, invShiftSub, subBytes_invSubBytes, shiftRows_invShiftRows]

theorem forwardRound_eq (b t : Block) : forwardRound b t = addRoundKey (mixColumns (subShift b)) t := rfl

theorem finalRound_eq (b t : Block) : finalRound b t = addRoundKey (subShift b) t := rfl

theorem inverseRound_eq (b t : Block) : inverseRound b t = invMixColumns (addRoundKey (invShiftSub b) t) := rfl

theorem finalInverseRound_eq (b t : Block) : finalInverseRound b t = addRoundKey (invShiftSub b) t := rfl

/-- An inverse round undoes the forward round with its key, between states that stand after the row shift. -/
theorem inverseRound_subShift_forwardRound (b t : Block) : inverseRound (subShift (forwardRound b t)) t = subShift b := by
  rw [inverseRound_eq, invShiftSub_subShift, forwardRound_eq, addRoundKey_addRoundKey, invMixColumns_mixColumns]

/-- A forward round undoes the inverse round with its key, between states that stand before the key addition. -/
theorem forwardRound_invShiftSub_inverseRound (b t : Block) :
    forwardRound (invShiftSub (inverseRound b t)) t = invShiftSub b := by
  rw [forwardRound_eq, subShift_invShiftSub, inverseRound_eq, mixColumns_invMixColumns, addRoundKey_addRoundKey]

/-- Decryption undoes encryption (R144). -/
theorem invCipher_cipher (p : Block) (rk : RoundKeyFile) : invCipher (cipher p rk) rk = p := by
  have hrounds (b : Block) : fullRounds.reverse.foldl (fun st i => inverseRound st (roundKey rk i))
      (subShift (fullRounds.foldl (fun st i => forwardRound st (roundKey rk i)) b)) = subShift b :=
    foldl_reverse_foldl (fun b i => inverseRound_subShift_forwardRound b (roundKey rk i)) fullRounds b
  rw [invCipher, cipher, finalRound_eq, addRoundKey_addRoundKey, hrounds, finalInverseRound_eq, invShiftSub_subShift,
    addRoundKey_addRoundKey]

/-- Encryption undoes decryption (R144). -/
theorem cipher_invCipher (c : Block) (rk : RoundKeyFile) : cipher (invCipher c rk) rk = c := by
  have hrounds (b : Block) : fullRounds.foldl (fun st i => forwardRound st (roundKey rk i))
      (invShiftSub (fullRounds.reverse.foldl (fun st i => inverseRound st (roundKey rk i)) b)) = invShiftSub b :=
    foldl_reverse_foldl (fun b i => forwardRound_invShiftSub_inverseRound b (roundKey rk i)) fullRounds.reverse b
  rw [cipher, invCipher, finalInverseRound_eq, addRoundKey_addRoundKey, hrounds, finalRound_eq, subShift_invShiftSub,
    addRoundKey_addRoundKey]

/-- `InvCipher(C, RK)` is the one `X` with `Cipher(X, RK) = C` (R143). -/
theorem cipher_eq_iff {x c : Block} {rk : RoundKeyFile} : cipher x rk = c ↔ x = invCipher c rk where
  mp h := by rw [← h, invCipher_cipher]
  mpr h := by rw [h, cipher_invCipher]

/-! ## ENC and DEC -/

/-- ENC without a key is E_NOKEY (R142, R166). -/
theorem execEnc_of_noKey {s : State} (h : s.KV = false) : execEnc s = .next (s.afterError 2) := requireKey_of_noKey h _

/-- DEC without a key is E_NOKEY (R143, R166). -/
theorem execDec_of_noKey {s : State} (h : s.KV = false) : execDec s = .next (s.afterError 2) := requireKey_of_noKey h _

/-- The example of R142. -/
theorem cipher_example :
    cipher (blockOfBus 0x00112233445566778899aabbccddeeff)
        (expandKey (keyOfBus 0x000102030405060708090a0b0c0d0e0f101112131415161718191a1b1c1d1e1f)) =
      blockOfBus 0x8ea2b7ca516745bfeafc49904b496089 := by
  decide +kernel

/-- A second ENC changes `S` again, unless the first left it as it was: `Cipher` is injective. -/
theorem exec_enc_enc_ne {s : State} (h : s.KV = true) (hne : cipher s.S s.RK ≠ s.S) :
    ∃ t u, exec .enc s = .next t ∧ exec .enc t = .next u ∧ u.S ≠ t.S := by
  refine ⟨_, _, execEnc_of_key h, execEnc_of_key h, fun heq => hne ?_⟩
  exact (cipher_eq_iff.mp heq).trans (invCipher_cipher s.S s.RK)

/-- Settles O14: ENC by the check on the key, and the example by evaluation; the state in which a second ENC changes `S` is the
example's. -/
theorem encCommand : Obligations.EncCommand := by
  unfold Obligations.EncCommand
  refine ⟨by decide, fun w => rejectedForReservedBit_formatN (i := .enc) rfl, fun s => execEnc_of_key,
    fun s => execEnc_of_noKey, fun s hkv => ⟨_, execAll_pair (execEnc_of_key hkv) (execEnc_of_key hkv), rfl⟩,
    ⟨{ State.reset with
        S := blockOfBus 0x00112233445566778899aabbccddeeff
        RK := expandKey (keyOfBus 0x000102030405060708090a0b0c0d0e0f101112131415161718191a1b1c1d1e1f)
        KV := true }, exec_enc_enc_ne rfl ?_⟩, fun s hkv hrk hs => ?_⟩
  · rw [cipher_example]
    decide +kernel
  · have hcipher : cipher s.S s.RK = blockOfBus 0x8ea2b7ca516745bfeafc49904b496089 := by rw [hs, hrk, cipher_example]
    exact (execEnc_of_key hkv).trans (by rw [hcipher])

/-- Settles O15: DEC by the check on the key, and the unique preimage and the example by `cipher_eq_iff`. -/
theorem decCommand : Obligations.DecCommand := by
  unfold Obligations.DecCommand
  refine ⟨by decide, fun w => rejectedForReservedBit_formatN (i := .dec) rfl, fun s => execDec_of_key,
    fun s hkv => ⟨_, execDec_of_key hkv, fun x => cipher_eq_iff⟩, fun s => execDec_of_noKey, fun s hkv hrk hs => ?_⟩
  have hinv : invCipher s.S s.RK = blockOfBus 0x00112233445566778899aabbccddeeff := by
    rw [hs, hrk]
    exact (cipher_eq_iff.mp cipher_example).symm
  exact (execDec_of_key hkv).trans (by rw [hinv])

end Sys2Proof.Machine
end

section
/-!
Proofs: the commands that move `S` and the status across the interface (44_interface_commands.md rules R150 to R152), and O3 to
O5 from them.
-/

namespace Sys2Proof.Machine

/-! ## LDS and RDS -/

/-- LDS replaces `S` by the block on `DIN` and completes (R150). -/
theorem exec_lds (s : State) : exec .lds s = .next ({ s with S := blockOfBus s.bus.din }.afterSuccess 0) := complete_eq 0 _

/-- RDS answers the block on the bus and changes nothing but `LAST_ERR` (R151). -/
theorem exec_rds (s : State) : exec .rds s = .next (s.afterSuccess (busOfBlock s.S)) := complete_eq _ s

/-- Settles O3: LDS's words by format N, its effect by `exec_lds`, the bytes of `S` by `byte_blockOfBus`. -/
theorem ldsCommand : Obligations.LdsCommand := by
  unfold Obligations.LdsCommand
  refine ⟨by decide, fun w => rejectedForReservedBit_formatN (i := .lds) rfl,
    fun s => ⟨_, byte_blockOfBus s.bus.din, exec_lds s⟩, fun s hdin => ⟨_, exec_lds s, ?_⟩⟩
  simp only [State.afterSuccess_S, byte_blockOfBus, hdin]
  decide

/-- Settles O4: RDS's words by format N, its answer by `exec_rds`; after LDS it answers `DIN`, since a block loaded from a bus
has the bus value back. -/
theorem rdsCommand : Obligations.RdsCommand := by
  unfold Obligations.RdsCommand
  refine ⟨by decide, fun w => rejectedForReservedBit_formatN (i := .rds) rfl,
    fun s => ⟨_, extractLsb'_byte_busOfBlock s.S, exec_rds s⟩, ?_, fun s hdin => ⟨_, _, exec_lds s, exec_rds _, ?_⟩⟩
  · have hzero : busOfBlock Block.zero = 0 := by decide
    exact hzero ▸ exec_rds State.reset
  · rw [State.afterSuccess_responses, State.afterSuccess_S, busOfBlock_blockOfBus, hdin]

/-! ## STATUS -/

/-- A bit of a byte on the response bus is that bit of the byte, and zero above `DOUT[7:0]` (R44). -/
theorem getLsbD_busOfByte (x : Byte) (i : Nat) : (busOfByte x).getLsbD i = x.getLsbD i := by
  rw [busOfByte, BitVec.getLsbD_setWidth, Bool.and_eq_right_iff_imp, decide_eq_true_eq]
  exact fun h => (BitVec.lt_of_getLsbD h).trans (by decide)

/-- A field of a byte on the response bus is that field of the byte (R44). -/
theorem extractLsb'_busOfByte (x : Byte) (i n : Nat) : (busOfByte x).extractLsb' i n = x.extractLsb' i n :=
  BitVec.eq_of_getLsbD_eq fun j _ => by
    rw [BitVec.getLsbD_extractLsb', BitVec.getLsbD_extractLsb', getLsbD_busOfByte]

/-- `STATUS[0]` is `KV` (R27). -/
theorem getLsbD_status_zero (s : State) : (status s).getLsbD 0 = s.KV := by
  have hkv : (kvBit s.KV).getLsbD 0 = s.KV := by cases s.KV <;> rfl
  exact BitVec.getLsbD_append.trans ((if_pos Nat.one_pos).trans hkv)

/-- `STATUS[3:1]` is zero (R27). -/
theorem extractLsb'_status_reserved (s : State) : (status s).extractLsb' 1 3 = 0 :=
  (BitVec.extractLsb'_append_eq_of_le le_rfl).trans BitVec.extractLsb'_append_eq_right

/-- `STATUS[7:4]` is `LAST_ERR` (R27). -/
theorem extractLsb'_status_lastErr (s : State) : (status s).extractLsb' 4 4 = s.LAST_ERR :=
  (BitVec.extractLsb'_append_eq_of_le (by decide)).trans BitVec.extractLsb'_append_eq_left

/-! ## RDSTAT -/

/-- RDSTAT answers STATUS and writes nothing else, not even `LAST_ERR` (R152). -/
theorem exec_rdstat (s : State) :
    exec .rdstat s = .next { s with responses := s.responses ++ [⟨0, busOfByte (status s)⟩] } :=
  completeKeepingLastErr_eq _ s

/-- The first of several commands, and the others from where it leads. -/
theorem execAll_cons {i : Instr} {s t : State} (hi : exec i s = .next t) (is : List Instr) :
    execAll (i :: is) s = execAll is t := by
  simp only [execAll, hi]

/-- RDSTAT as the last command of a sequence, after which nothing has changed but the responses. -/
theorem execAll_rdstat {s : State} {e : BitVec 4} {kv : Bool} (herr : s.LAST_ERR = e) (hkv : s.KV = kv) :
    execAll [.rdstat] s = .next { s with responses := s.responses ++ [⟨0, busOfByte (e ++ 0#3 ++ kvBit kv)⟩] } := by
  rw [execAll_cons (exec_rdstat s), status, herr, hkv]
  rfl

/-- A second RDSTAT answers what the first did: the first writes neither `KV` nor `LAST_ERR` (R152). -/
theorem execAll_rdstat_rdstat (s : State) :
    execAll [.rdstat, .rdstat] s =
      .next { s with responses := s.responses ++ [⟨0, busOfByte (status s)⟩, ⟨0, busOfByte (status s)⟩] } := by
  refine (execAll_pair (exec_rdstat s) (exec_rdstat _)).trans ?_
  rw [List.append_assoc]
  rfl

/-- What RDSTAT shows of KEYEXP with the right length (R96). -/
theorem exec_keyexp_leaves_status (s : State) :
    ∃ t, exec (.keyexp 32) s = .next t ∧ t.LAST_ERR = 0 ∧ t.KV = true ∧ t.responses = s.responses ++ [⟨0, 0⟩] :=
  ⟨_, execKeyexp_of_length s, rfl, rfl, rfl⟩

/-- Settles O5: RDSTAT's words by format N, the fields of its answer by those of STATUS, and the sequences by what the command
before RDSTAT leaves in `KV` and `LAST_ERR`. -/
theorem rdstatCommand : Obligations.RdstatCommand := by
  unfold Obligations.RdstatCommand
  refine ⟨by decide, fun w => rejectedForReservedBit_formatN (i := .rdstat) rfl,
    fun s => ⟨busOfByte (status s), ?_, ?_, ?_, extractLsb'_busOfByte_high _, exec_rdstat s, execAll_rdstat_rdstat s⟩,
    exec_rdstat State.reset, fun s hkv => ?_, fun s => ?_, fun s => ?_⟩
  · rw [getLsbD_busOfByte, getLsbD_status_zero]
  · rw [extractLsb'_busOfByte, extractLsb'_status_reserved]
  · rw [extractLsb'_busOfByte, extractLsb'_status_lastErr]
  · rw [execAll_cons (i := .enc) (execEnc_of_noKey hkv), execAll_rdstat (State.afterError_LAST_ERR s 2) hkv,
      State.afterError_responses, List.append_assoc]
    rfl
  · obtain ⟨t, ht, herr, hkv, hresponses⟩ := exec_keyexp_leaves_status s
    refine ⟨_, (execAll_cons ht _).trans (execAll_rdstat herr hkv), ?_⟩
    rw [hresponses, List.append_assoc]
    rfl
  · obtain ⟨t, ht, -, hkv, hresponses⟩ := exec_keyexp_leaves_status s
    have hark : exec (.ark 15) t = .next (t.afterError 4) := execArk_of_index le_rfl t
    refine ⟨_, (execAll_cons ht _).trans ((execAll_cons hark _).trans (execAll_rdstat (t.afterError_LAST_ERR 4) hkv)), ?_⟩
    rw [State.afterError_responses, hresponses, List.append_assoc, List.append_assoc]
    rfl

end Sys2Proof.Machine
end

section
/-!
Proofs: the code that a command answers, from the command (`commandCode`) and from its word (60_exceptions.md rules R160 to R167),
and O27 and O28 from it.
-/

namespace Sys2Proof.Machine

/-! ## The code from the command -/

/-- A command answers its code (R161 to R163). -/
theorem exec_answers_commandCode (i : Instr) (s : State) :
    ∃ t d, exec i s = .next t ∧ t.responses = s.responses ++ [⟨(commandCode i s.KV).bits, d⟩] := by
  obtain ⟨t, ht, hcases⟩ := exec_cases i s
  obtain ⟨-, rfl⟩ | ⟨rfl, rfl⟩ | ⟨hc, -, b, rfl⟩ | ⟨hc, -, d, rfl⟩ | ⟨rfl, rfl⟩ := hcases
  · exact ⟨_, 0, ht, rfl⟩
  · exact ⟨_, 0, ht, rfl⟩
  · exact ⟨_, 0, ht, by rw [hc]; rfl⟩
  · exact ⟨_, d, ht, by rw [hc]; rfl⟩
  · exact ⟨_, busOfByte (status s), ht, rfl⟩

/-- A command that answers an error changes only `LAST_ERR` (R161): the code it answers is the one it raises. -/
theorem exec_eq_afterError_of_resp_ne_zero {i : Instr} {s t : State} {r : Response} (ht : exec i s = .next t)
    (hr : t.responses = s.responses ++ [r]) (hne : r.resp ≠ 0) : t = s.afterError r.resp := by
  obtain ⟨u, d, hu, hresponses⟩ := exec_answers_commandCode i s
  obtain rfl : t = u := Host.Outcome.next.inj (ht.symm.trans hu)
  obtain rfl : r = ⟨(commandCode i s.KV).bits, d⟩ := List.singleton_inj.mp (List.append_cancel_left (hr.symm.trans hresponses))
  have hcode : commandCode i s.KV ≠ .eNone := fun h => hne ((ErrCode.bits_eq_zero_iff _).mpr h)
  exact Host.Outcome.next.inj (ht.symm.trans (exec_of_error hcode))

/-! ## The code from the word -/

/-- The code that a legal command word answers, in R163's order: E_KEYLEN, E_INDEX, E_NOKEY, E_NONE. -/
def legalWordCode (w : BitVec 32) (kv : Bool) : BitVec 4 :=
  if w &&& 0xFF = 0x01 ∧ w.extractLsb' 16 8 ≠ 32 then 1
  else if (w &&& 0xFF = 0x02 ∨ w &&& 0xFF = 0x36) ∧ w.extractLsb' 8 4 = 15 then 4
  else if (w &&& 0xFF = 0x02 ∨ w &&& 0xFF = 0x36 ∨ w &&& 0xFF = 0x40 ∨ w &&& 0xFF = 0x41) ∧ kv = false then 2
  else 0

/-- KEYEXP's word answers by its length byte, and not by `KV` (R163, R165). -/
theorem legalWordCode_formatL_keyexp (l : BitVec 8) (kv : Bool) : legalWordCode (formatL l 0x01) kv = if l = 32 then 0 else 1 := by
  have hopc : formatL l 0x01 &&& 0xFF = 0x01 := by rw [and_0xFF_eq_ofNat_opcField, opcField_formatL]; rfl
  have hl : (formatL l 0x01).extractLsb' 16 8 = l := lField_formatL l 0x01
  rw [legalWordCode, hopc, hl]
  by_cases h32 : l = 32 <;> simp [h32]

/-- A word of format K answers by its round index first and by `KV` then (R163, R166, R167). -/
theorem legalWordCode_formatK {o : BitVec 8} (ho : o = 0x02 ∨ o = 0x36) (k : BitVec 4) (kv : Bool) :
    legalWordCode (formatK k o) kv = if k = 15 then 4 else if kv then 0 else 2 := by
  have hopc : formatK k o &&& 0xFF = BitVec.ofNat 32 o.toNat := by rw [and_0xFF_eq_ofNat_opcField, opcField_formatK]
  have hk : (formatK k o).extractLsb' 8 4 = k := kField_formatK k o
  rw [legalWordCode, hopc, hk]
  obtain rfl | rfl := ho <;> cases kv <;> simp

/-- A word of format G answers no error (R83). -/
theorem legalWordCode_formatG_gfmul (a b : BitVec 8) (kv : Bool) : legalWordCode (formatG b a 0x20) kv = 0 := by
  have hopc : formatG b a 0x20 &&& 0xFF = 0x20 := by rw [and_0xFF_eq_ofNat_opcField, opcField_formatG]; rfl
  rw [legalWordCode, hopc]
  simp

/-- A 4-bit round index is 15 exactly when it is above 14 (R167). -/
theorem ofNat_eq_15_iff {k : Nat} (hk : k < 16) : BitVec.ofNat 4 k = 15 ↔ 14 < k := by
  rw [← BitVec.toNat_inj, BitVec.toNat_ofNat, Nat.mod_eq_of_lt hk]
  exact (by omega : k = 15 ↔ 14 < k)

/-- A format K command with a well-formed index has the code of its word (R166, R167). -/
theorem bits_roundCode {k : Nat} (hk : k < 16) (kv : Bool) :
    (if 14 < k then ErrCode.eIndex else if kv then .eNone else .eNoKey).bits =
      if BitVec.ofNat 4 k = 15 then 4 else if kv then 0 else 2 := by
  simp only [ofNat_eq_15_iff hk, apply_ite ErrCode.bits]
  rfl

/-- The code of a well-formed command is that of its word (R163). -/
theorem bits_commandCode {i : Instr} (hi : i.wellFormed = true) (kv : Bool) :
    (commandCode i kv).bits = legalWordCode (encode i) kv := by
  cases i with
  | keyexp l =>
    have hl : l < 256 := of_decide_eq_true hi
    have h32 : BitVec.ofNat 8 l = 32 ↔ l = 32 := by
      rw [← BitVec.toNat_inj, BitVec.toNat_ofNat, Nat.mod_eq_of_lt hl]
      rfl
    rw [encode, legalWordCode_formatL_keyexp, commandCode, apply_ite ErrCode.bits]
    simp only [h32]
    rfl
  | rdrk k =>
    rw [encode, legalWordCode_formatK (.inl rfl)]
    exact bits_roundCode (of_decide_eq_true hi) kv
  | ark k =>
    rw [encode, legalWordCode_formatK (.inr rfl)]
    exact bits_roundCode (of_decide_eq_true hi) kv
  | gfmul a b => exact (legalWordCode_formatG_gfmul a b kv).symm
  | lds | rds | rdstat | sub | invsub | shr | invshr | mix | invmix | enc | dec => cases kv <;> decide

/-! ## The obligations -/

/-- Settles O27: an illegal word is one that selects no row; a legal one answers its command's code, which is that of the word. -/
theorem responseCodeFollowsPrecedence : Obligations.ResponseCodeFollowsPrecedence := by
  unfold Obligations.ResponseCodeFollowsPrecedence
  intro s rq rest hp
  cases hd : decode rq.cmd with
  | illegal e =>
    rw [if_pos ((decode_illegal_iff rq.cmd).mp ⟨e, hd⟩)]
    exact ⟨_, 0, step_of_illegal hp hd, rfl⟩
  | command i =>
    have hlegal : ¬ ∀ row ∈ opcodeMap, row.selects rq.cmd = false := by
      rw [← decode_illegal_iff, hd]
      exact nofun
    have hcode : (commandCode i s.KV).bits = legalWordCode rq.cmd s.KV := by
      rw [bits_commandCode (wellFormed_of_decode hd), encode_of_decode hd]
    rw [if_neg hlegal, step_of_command hp hd]
    obtain ⟨t, d, ht, hresponses⟩ := exec_answers_commandCode i { s with bus := rq, pending := rest }
    rw [hcode] at hresponses
    exact ⟨t, d, ht, hresponses⟩

/-- Settles O28: an illegal word raises E_ILLEGAL, and a legal one that answers an error raises that error. -/
theorem errorChangesOnlyLastErr : Obligations.ErrorChangesOnlyLastErr := by
  unfold Obligations.ErrorChangesOnlyLastErr
  intro s t rq rest r hp hstep hr hne
  cases hd : decode rq.cmd with
  | illegal e =>
    obtain rfl := Host.Outcome.next.inj (hstep.symm.trans (step_of_illegal hp hd))
    obtain rfl : ⟨3, 0⟩ = r := List.singleton_inj.mp (List.append_cancel_left hr)
    rfl
  | command i => exact exec_eq_afterError_of_resp_ne_zero ((step_of_command hp hd).symm.trans hstep) hr hne

end Sys2Proof.Machine
end

section
/-!
Proofs: reset (70_reset_and_hazards.md rules R180 and R181). The laws of `step` give the state after a reset action; here stand
the values of R180's table that the spec states byte by byte and word by word, and the obligation.
-/

namespace Sys2Proof

@[simp] theorem Word.byte_zero (r : Fin 4) : Word.zero.byte r = 0 := by
  fin_cases r <;> rfl

@[simp] theorem Block.byte_zero (c r : Fin 4) : Block.zero.byte c r = 0 := by
  have hcol : Block.zero.col c = Word.zero := by fin_cases c <;> rfl
  rw [Block.byte, hcol, Word.byte_zero]

end Sys2Proof

namespace Sys2Proof.Machine

/-- A reset between commands and one during a command are the same step (R181). -/
theorem step_of_reset_or_resetDuring {s : State} {act : HostAction} {rest : List HostAction} (hp : s.pending = act :: rest)
    (hact : act = .reset ∨ ∃ rq, act = .resetDuring rq) :
    step s = .next { State.reset with pending := rest, responses := s.responses } := by
  obtain rfl | ⟨rq, rfl⟩ := hact
  · exact step_of_reset hp
  · exact step_of_resetDuring hp

theorem status_eq_zero {t : State} (hkv : t.KV = false) (herr : t.LAST_ERR = 0) : status t = 0x00 := by
  rw [status, hkv, herr]
  decide

/-- Settles O25: the state after the step is that of R180's table but for the host's two lists. -/
theorem resetActionResetsTheBlock : Obligations.ResetActionResetsTheBlock := by
  unfold Obligations.ResetActionResetsTheBlock
  intro s act rest hp hact
  have hRK (i : Fin 60) : State.reset.RK[i] = ⟨0, 0, 0, 0⟩ := Vector.getElem_replicate i.isLt
  exact ⟨_, step_of_reset_or_resetDuring hp hact, Block.byte_zero, hRK, rfl, rfl, status_eq_zero rfl rfl, rfl⟩

end Sys2Proof.Machine
end

section
/-!
Proofs: the round trips between commands and words, and the operands and rows of legal words (30_encoding.md rules R61 to R74):
O16, O17, O18, O20, O22 and O58.
-/

namespace Sys2Proof

/-- The decoder gives back a command of format N, which has no operand (R61, R66). -/
theorem decode_encode_of_isFormatN {i : Instr} (hi : i.isFormatN = true) : decode (encode i) = .command i := by
  have hword : encode i = formatN (opcField (encode i)) := by
    cases i with
    | keyexp | rdrk | gfmul | ark => cases hi
    | lds | rds | rdstat | sub | invsub | shr | invshr | mix | invmix | enc | dec => rw [encode, opcField_formatN]
  have hclear : reservedClearN (encode i) = true := hword ▸ reservedClearN_formatN _
  rw [decode_of_formatN_opcode hi rfl, decodeN, guardReserved_eq_command_iff]
  exact ⟨hclear, rfl⟩

/-- The decoder gives back every command whose operands fit their fields (R65, R66). -/
theorem decode_encode {i : Instr} (h : i.wellFormed = true) : decode (encode i) = .command i := by
  cases i with
  | keyexp l => rw [encode, decode_formatL_keyexp, BitVec.toNat_ofNat, Nat.mod_eq_of_lt (of_decide_eq_true h)]
  | rdrk k => rw [encode, decode_formatK_rdrk, BitVec.toNat_ofNat, Nat.mod_eq_of_lt (of_decide_eq_true h)]
  | ark k => rw [encode, decode_formatK_ark, BitVec.toNat_ofNat, Nat.mod_eq_of_lt (of_decide_eq_true h)]
  | gfmul a b => exact decode_formatG_gfmul a b
  | lds | rds | rdstat | sub | invsub | shr | invshr | mix | invmix | enc | dec => exact decode_encode_of_isFormatN rfl

/-- Settles O16: format by format, with the operands inside their fields. -/
theorem decodeOfEncodeIsTheCommand : Obligations.DecodeOfEncodeIsTheCommand := by
  unfold Obligations.DecodeOfEncodeIsTheCommand
  exact fun _ => decode_encode

/-- Settles O17: the reserved bits of a legal word are zero, so its fields and its opcode are the whole word. -/
theorem encodeOfDecodeIsTheWord : Obligations.EncodeOfDecodeIsTheWord := by
  unfold Obligations.EncodeOfDecodeIsTheWord
  exact fun _ _ => encode_of_decode

/-- Settles O18: each operand is a field of the word, or has none to check. -/
theorem decodedCommandIsWellFormed : Obligations.DecodedCommandIsWellFormed := by
  unfold Obligations.DecodedCommandIsWellFormed
  exact fun _ _ => wellFormed_of_decode

/-- Settles O20: every row's mask covers the opcode byte, and the rows' opcodes differ. -/
theorem opcodeRowsDoNotOverlap : Obligations.OpcodeRowsDoNotOverlap := by
  unfold Obligations.OpcodeRowsDoNotOverlap
  exact fun _ _ hrow _ hrow' => row_eq_of_selects hrow hrow'

/-- Settles O22: nine closed words, each by evaluation of the decoder. -/
theorem sampleWordsDecode : Obligations.SampleWordsDecode := by
  unfold Obligations.SampleWordsDecode
  refine ⟨?_, ?_, ?_, ?_, ?_, ?_, ?_, ?_, ?_⟩ <;> decide

/-- ARK's word holds its round index from bit 8 on (R62, R66). -/
theorem encode_ark : ∀ k < 16, encode (.ark k) = BitVec.ofNat 32 (256 * k + 0x36) := by decide

/-- Settles O58: the words without an operand by evaluation, and those of a full round's ARK by `encode_ark`. -/
theorem pseudoInstructionWords : Obligations.PseudoInstructionWords := by
  unfold Obligations.PseudoInstructionWords
  refine ⟨fun _ => rfl, rfl, fun k _ hk => ?_, rfl, rfl, fun k _ hk => ?_, rfl, fun _ => ⟨rfl, rfl⟩⟩
  · rw [← encode_ark k (by omega)]
    rfl
  · rw [← encode_ark k (by omega)]
    rfl

end Sys2Proof
end

section
/-!
Proofs: the bytes of round keys and of the key bus (10_state.md rule R22, 20_memory.md rules R42 and R43): O47 and O57.
-/

namespace Sys2Proof.Machine

/-- Settles O47: the columns of a round key are four words of the file, and the first eight words are the master key. -/
theorem roundKeysAreGroupsOfFourWords : Obligations.RoundKeysAreGroupsOfFourWords := by
  unfold Obligations.RoundKeysAreGroupsOfFourWords
  refine ⟨byte_roundKey, fun v c r => ⟨?_, ?_⟩⟩
  · simpa using byte_roundKey_expandKey v (k := 0) (by decide) c r
  · simpa [Nat.mul_add] using byte_roundKey_expandKey v (k := 1) (by decide) c r

/-- A word's bits are the 32-bit value that has the word's bytes, byte 0 on top (R43). -/
theorem wordBits_eq_of_bytes {w : Word} {v : BitVec 32} (h : ∀ r : Fin 4, w.byte r = v.extractLsb' (24 - 8 * r.val) 8) :
    wordBits w = v := by
  apply BitVec.eq_of_getLsbD_eq
  intro i hi
  have hbyte := congrArg (fun x => x.getLsbD (i % 8)) ((extractLsb'_wordBits w ⟨3 - i / 8, by omega⟩).trans (h _))
  simpa only [BitVec.getLsbD_extractLsb', show i % 8 < 8 by omega, decide_true, Bool.true_and,
    show 24 - 8 * (3 - i / 8) + i % 8 = i by omega] using hbyte

/-- Byte `r` of master-key word `j` is key byte `4j + r` (R42). -/
theorem byte_keyOfBus (v : BitVec 256) (j : Fin 8) (r : Fin 4) :
    ((keyOfBus v)[j]).byte r = v.extractLsb' (248 - 8 * (4 * j.val + r.val)) 8 := by
  rw [getElem_keyOfBus, keyWordOfBus, Word.byte_ofBytes]

/-- Settles O57: the bytes of the key's words by `byte_keyOfBus`, and a word's bits from its bytes. -/
theorem keyBusPacking : Obligations.KeyBusPacking := by
  unfold Obligations.KeyBusPacking
  refine ⟨byte_keyOfBus, fun v j => wordBits_eq_of_bytes fun r => ?_, extractLsb'_wordBits⟩
  rw [byte_keyOfBus, extractLsb'_extractLsb'_of_add_le _ (by omega)]
  congr 1
  omega

end Sys2Proof.Machine
end

section
/-!
Proofs: the one state that a command leads to, as a function of the state it starts from. It says what a command reads, and so
what its outcome depends on; `exec_cases` says what it can write.
-/

namespace Sys2Proof.Machine

/-! ## The state after a command -/

/-- The state after the command `i` completes without an error (60_exceptions.md rule R162), where `loaded` is what KEYEXP writes
to `RK`: with a variable for it, no proof unfolds the key schedule. The round index of RDRK and ARK is below 15 when they
complete, so reducing it to `Fin 15` does not change it. -/
def completedState (loaded : RoundKeyFile) (i : Instr) (s : State) : State :=
  match i with
  | .keyexp _ => { s with RK := loaded, KV := true }.afterSuccess 0
  | .rdrk k => s.afterSuccess (busOfBlock (roundKey s.RK (Fin.ofNat 15 k)))
  | .lds => { s with S := blockOfBus s.bus.din }.afterSuccess 0
  | .rds => s.afterSuccess (busOfBlock s.S)
  | .rdstat => { s with responses := s.responses ++ [⟨0, busOfByte (status s)⟩] }
  | .gfmul a b => s.afterSuccess (busOfByte (gfMul a b))
  | .sub => { s with S := subBytes s.S }.afterSuccess 0
  | .invsub => { s with S := invSubBytes s.S }.afterSuccess 0
  | .shr => { s with S := shiftRows s.S }.afterSuccess 0
  | .invshr => { s with S := invShiftRows s.S }.afterSuccess 0
  | .mix => { s with S := mixColumns s.S }.afterSuccess 0
  | .invmix => { s with S := invMixColumns s.S }.afterSuccess 0
  | .ark k => { s with S := addRoundKey s.S (roundKey s.RK (Fin.ofNat 15 k)) }.afterSuccess 0
  | .enc => { s with S := cipher s.S s.RK }.afterSuccess 0
  | .dec => { s with S := invCipher s.S s.RK }.afterSuccess 0

/-- The state after the command `i`: the one it completes in, or the one in which only its error is recorded (R161, R162). -/
def stateAfter (i : Instr) (s : State) : State :=
  if commandCode i s.KV = .eNone then completedState (expandKey (keyOfBus s.bus.kin)) i s
  else s.afterError (commandCode i s.KV).bits

theorem eq_true_of_keyCode {kv : Bool} (h : (if kv then ErrCode.eNone else .eNoKey) = .eNone) : kv = true := by
  cases kv with
  | true => rfl
  | false => cases h

theorem length_of_keyexpCode {l : Nat} {kv : Bool} (h : commandCode (.keyexp l) kv = .eNone) : l = 32 := by
  by_contra hl
  cases (if_neg hl : commandCode (.keyexp l) kv = .eKeyLen).symm.trans h

theorem index_and_key_of_roundCode {k : Nat} {kv : Bool}
    (h : (if 14 < k then ErrCode.eIndex else if kv then .eNone else .eNoKey) = .eNone) : k < 15 ∧ kv = true := by
  split at h
  next => cases h
  next hk => exact ⟨by omega, eq_true_of_keyCode h⟩

theorem ofNat_15_eq {k : Nat} (hk : k < 15) : Fin.ofNat 15 k = ⟨k, hk⟩ := Fin.ext (Nat.mod_eq_of_lt hk)

/-- A command whose code is E_NONE completes (R162, R163). -/
theorem exec_of_success {i : Instr} {s : State} (h : commandCode i s.KV = .eNone) :
    exec i s = .next (completedState (expandKey (keyOfBus s.bus.kin)) i s) := by
  cases i with
  | keyexp l =>
    obtain rfl := length_of_keyexpCode h
    exact execKeyexp_of_length s
  | rdrk k =>
    obtain ⟨hk, hkv⟩ := index_and_key_of_roundCode h
    rw [completedState, ofNat_15_eq hk]
    exact execRdrk_of_key ⟨k, hk⟩ hkv
  | ark k =>
    obtain ⟨hk, hkv⟩ := index_and_key_of_roundCode h
    rw [completedState, ofNat_15_eq hk]
    exact execArk_of_key ⟨k, hk⟩ hkv
  | enc => exact execEnc_of_key (eq_true_of_keyCode h)
  | dec => exact execDec_of_key (eq_true_of_keyCode h)
  | lds | rds | rdstat | gfmul | sub | invsub | shr | invshr | mix | invmix => rfl

/-- Every command leads to `stateAfter` (R31). -/
theorem exec_eq_stateAfter (i : Instr) (s : State) : exec i s = .next (stateAfter i s) := by
  unfold stateAfter
  split
  next h => exact exec_of_success h
  next h => exact exec_of_error h

/-- A property of the state after a command, from its two outcomes. -/
theorem stateAfter_induction {motive : State → Prop} {i : Instr} {s : State}
    (completed : ∀ rk, commandCode i s.KV = .eNone → motive (completedState rk i s))
    (error : commandCode i s.KV ≠ .eNone → motive (s.afterError (commandCode i s.KV).bits)) : motive (stateAfter i s) := by
  unfold stateAfter
  split
  next h => exact completed _ h
  next h => exact error h

/-! ## What a command leaves, what it reads, and what it writes -/

section
variable (i : Instr) (s : State)

@[simp] theorem stateAfter_bus : (stateAfter i s).bus = s.bus :=
  stateAfter_induction (motive := fun t => t.bus = s.bus) (fun _ _ => by cases i <;> rfl) fun _ => rfl

@[simp] theorem stateAfter_pending : (stateAfter i s).pending = s.pending :=
  stateAfter_induction (motive := fun t => t.pending = s.pending) (fun _ _ => by cases i <;> rfl) fun _ => rfl

/-- KEYEXP with `L = 32` sets `KV`, and no command clears it (R25). -/
theorem stateAfter_KV : (stateAfter i s).KV = if i = .keyexp 32 then true else s.KV := by
  refine stateAfter_induction (motive := fun t => t.KV = _) (fun rk h => ?_) fun h => ?_
  · cases i with
    | keyexp l =>
      obtain rfl := length_of_keyexpCode h
      exact (if_pos rfl).symm
    | rdrk | lds | rds | rdstat | gfmul | sub | invsub | shr | invshr | mix | invmix | ark | enc | dec =>
      exact (if_neg nofun).symm
  · have hne : i ≠ .keyexp 32 := by rintro rfl; exact h rfl
    exact (if_neg hne).symm

/-- The host's later actions pass through a command (R50). -/
theorem stateAfter_withPending (p : List HostAction) :
    stateAfter i { s with pending := p } = { stateAfter i s with pending := p } := by
  unfold stateAfter
  dsimp only
  generalize expandKey (keyOfBus s.bus.kin) = rk
  split
  · cases i <;> rfl
  · rfl

/-- Earlier responses stay in front of a command's own. -/
theorem stateAfter_withResponses (earlier : List Response) :
    stateAfter i { s with responses := earlier ++ s.responses } =
      { stateAfter i s with responses := earlier ++ (stateAfter i s).responses } := by
  unfold stateAfter
  dsimp only
  generalize expandKey (keyOfBus s.bus.kin) = rk
  split
  · cases i <;> simp [completedState, State.afterSuccess, status]
  · simp [State.afterError]

/-- A command other than RDSTAT does not read `LAST_ERR`, and writes it (R26, R171). -/
theorem stateAfter_withLastErr {i : Instr} (hi : i ≠ .rdstat) (e : BitVec 4) :
    stateAfter i { s with LAST_ERR := e } = stateAfter i s := by
  unfold stateAfter
  dsimp only
  generalize expandKey (keyOfBus s.bus.kin) = rk
  split
  · cases i with
    | rdstat => exact absurd rfl hi
    | keyexp | rdrk | lds | rds | gfmul | sub | invsub | shr | invshr | mix | invmix | ark | enc | dec => rfl
  · rfl

/-- Of the buses a command reads `DIN` if it is LDS, and `KIN` if it is KEYEXP with `L = 32` (R47). -/
theorem stateAfter_withBus {i : Instr} {b b' : Request} (hdin : i = .lds → b.din = b'.din)
    (hkin : i = .keyexp 32 → b.kin = b'.kin) :
    stateAfter i { s with bus := b' } = { stateAfter i { s with bus := b } with bus := b' } := by
  unfold stateAfter
  dsimp only
  split
  next h =>
    cases i with
    | keyexp l =>
      obtain rfl := length_of_keyexpCode h
      rw [hkin rfl]
      rfl
    | lds => simp only [completedState, hdin rfl]; rfl
    | rdrk | rds | rdstat | gfmul | sub | invsub | shr | invshr | mix | invmix | ark | enc | dec => rfl
  next => rfl

end

end Sys2Proof.Machine
end

section
/-!
Proofs: what one step of the block does (20_memory.md rules R47 to R50, 10_state.md rules R20 to R33): O23, O26, O31, O32, O37 to
O40.
-/

namespace Sys2Proof.Machine

/-! ## The step of a command word, legal or not -/

/-- The state after the command word `w` (30_encoding.md rule R69). -/
def wordAfter (w : BitVec 32) (s : State) : State :=
  match decode w with
  | .command i => stateAfter i s
  | .illegal _ => s.afterError 3

theorem wordAfter_of_command {w : BitVec 32} {i : Instr} (hd : decode w = .command i) (s : State) :
    wordAfter w s = stateAfter i s := by
  rw [wordAfter, hd]

theorem wordAfter_of_illegal {w : BitVec 32} {e : Illegal} (hd : decode w = .illegal e) (s : State) :
    wordAfter w s = s.afterError 3 := by
  rw [wordAfter, hd]

/-- The step of a command leads to `wordAfter`, with the request on the buses and the later actions still to come (R50). -/
theorem step_of_word {s : State} {rq : Request} {rest : List HostAction} (hp : s.pending = .command rq :: rest) :
    step s = .next (wordAfter rq.cmd { s with bus := rq, pending := rest }) := by
  cases hd : decode rq.cmd with
  | command i => rw [step_of_command hp hd, exec_eq_stateAfter, wordAfter_of_command hd]
  | illegal e => rw [step_of_illegal hp hd, wordAfter_of_illegal hd]

/-- The host's next action is one of three: nothing, a reset between or during commands, or a command (R187). -/
theorem pending_cases (s : State) :
    s.pending = [] ∨
    (∃ act rest, s.pending = act :: rest ∧ (act = .reset ∨ ∃ rq, act = .resetDuring rq)) ∨
    (∃ rq rest, s.pending = .command rq :: rest) := by
  cases hp : s.pending with
  | nil => exact .inl rfl
  | cons act rest =>
    cases act with
    | command rq => exact .inr (.inr ⟨rq, rest, rfl⟩)
    | reset => exact .inr (.inl ⟨_, rest, rfl, .inl rfl⟩)
    | resetDuring rq => exact .inr (.inl ⟨_, rest, rfl, .inr ⟨rq, rfl⟩⟩)

/-- The block never stops (93_implementation_defined.md V14). -/
theorem exists_step (s : State) : ∃ t, step s = .next t := by
  obtain hp | ⟨act, rest, hp, hact⟩ | ⟨rq, rest, hp⟩ := pending_cases s
  · exact ⟨s, step_of_idle hp⟩
  · exact ⟨_, step_of_reset_or_resetDuring hp hact⟩
  · exact ⟨_, step_of_word hp⟩

/-! ## What a command word leaves, what it reads, and what it writes -/

section
variable (w : BitVec 32) (s : State)

@[simp] theorem wordAfter_bus : (wordAfter w s).bus = s.bus := by
  cases hd : decode w with
  | command i => rw [wordAfter_of_command hd, stateAfter_bus]
  | illegal e => rw [wordAfter_of_illegal hd, State.afterError_bus]

@[simp] theorem wordAfter_pending : (wordAfter w s).pending = s.pending := by
  cases hd : decode w with
  | command i => rw [wordAfter_of_command hd, stateAfter_pending]
  | illegal e => rw [wordAfter_of_illegal hd, State.afterError_pending]

/-- A command word adds one response. -/
theorem exists_response_wordAfter : ∃ r, (wordAfter w s).responses = s.responses ++ [r] := by
  cases hd : decode w with
  | command i =>
    obtain ⟨t, r, ht, hr, -⟩ := exec_records_response i s
    rw [exec_eq_stateAfter] at ht
    rw [wordAfter_of_command hd, Host.Outcome.next.inj ht]
    exact ⟨r, hr⟩
  | illegal e =>
    rw [wordAfter_of_illegal hd]
    exact ⟨_, rfl⟩

/-- The word of KEYEXP with `L = 32` sets `KV`, and no word clears it (R25). -/
theorem wordAfter_KV : (wordAfter w s).KV = if w = 0x00200001 then true else s.KV := by
  cases hd : decode w with
  | command i =>
    rw [wordAfter_of_command hd, stateAfter_KV]
    simp only [word_eq_iff_of_decode hd decode_keyexp256_word]
  | illegal e => rw [wordAfter_of_illegal hd, if_neg (word_ne_of_decode_illegal hd decode_keyexp256_word), State.afterError_KV]

theorem wordAfter_withPending (p : List HostAction) :
    wordAfter w { s with pending := p } = { wordAfter w s with pending := p } := by
  cases hd : decode w with
  | command i => rw [wordAfter_of_command hd, wordAfter_of_command hd, stateAfter_withPending]
  | illegal e => rw [wordAfter_of_illegal hd, wordAfter_of_illegal hd]; rfl

theorem wordAfter_withResponses (earlier : List Response) :
    wordAfter w { s with responses := earlier ++ s.responses } =
      { wordAfter w s with responses := earlier ++ (wordAfter w s).responses } := by
  cases hd : decode w with
  | command i => rw [wordAfter_of_command hd, wordAfter_of_command hd, stateAfter_withResponses]
  | illegal e => rw [wordAfter_of_illegal hd, wordAfter_of_illegal hd]; simp [State.afterError]

/-- A word other than RDSTAT's does not read `LAST_ERR` (R171). -/
theorem wordAfter_withLastErr {w : BitVec 32} (hw : w ≠ 0x00000012) (e : BitVec 4) :
    wordAfter w { s with LAST_ERR := e } = wordAfter w s := by
  cases hd : decode w with
  | command i =>
    have hi : i ≠ .rdstat := fun h => hw ((word_eq_iff_of_decode hd decode_rdstat_word).mpr h)
    rw [wordAfter_of_command hd, wordAfter_of_command hd, stateAfter_withLastErr s hi]
  | illegal _ => rw [wordAfter_of_illegal hd, wordAfter_of_illegal hd]; rfl

theorem decode_lds_word : decode 0x00000010 = .command .lds := by decide

/-- Of the buses a word reads `DIN` if it is LDS's, and `KIN` if it is that of KEYEXP with `L = 32` (R47). -/
theorem wordAfter_withBus {w : BitVec 32} {b b' : Request} (hdin : w = 0x00000010 → b.din = b'.din)
    (hkin : w = 0x00200001 → b.kin = b'.kin) :
    wordAfter w { s with bus := b' } = { wordAfter w { s with bus := b } with bus := b' } := by
  cases hd : decode w with
  | command i =>
    rw [word_eq_iff_of_decode hd decode_lds_word] at hdin
    rw [word_eq_iff_of_decode hd decode_keyexp256_word] at hkin
    rw [wordAfter_of_command hd, wordAfter_of_command hd, stateAfter_withBus s hdin hkin]
  | illegal _ => rw [wordAfter_of_illegal hd, wordAfter_of_illegal hd]; rfl

end

/-! ## The obligations -/

/-- Settles O23: `step_of_command`, and of a 32-bit word `withFetchWord` keeps every bit. -/
theorem stepRunsTheDecodedCommand : Obligations.StepRunsTheDecodedCommand := by
  unfold Obligations.StepRunsTheDecodedCommand
  refine ⟨fun _ _ _ _ => step_of_command, fun s w i hd => ?_⟩
  have hw : BitVec.ofNat 32 (w.toNat % 2 ^ 32) = w := by rw [Nat.mod_eq_of_lt w.isLt, BitVec.ofNat_toNat, BitVec.setWidth_eq]
  exact step_of_command (rq := ⟨w, 0, 0⟩) (by rw [State.withFetchWord, hw]) hd

/-- Settles O26: for each thing the host can do next, the state that the step leads to. -/
theorem everyCommandGetsOneResponse : Obligations.EveryCommandGetsOneResponse := by
  unfold Obligations.EveryCommandGetsOneResponse
  intro s
  split
  next hp => exact step_of_idle hp
  next rq rest hp =>
    obtain ⟨r, hr⟩ := exists_response_wordAfter rq.cmd { s with bus := rq, pending := rest }
    exact ⟨_, r, step_of_word hp, hr, wordAfter_bus _ _, wordAfter_pending _ _⟩
  next act rest hne hp =>
    have hact : act = .reset ∨ ∃ rq, act = .resetDuring rq := by
      cases act with
      | command rq => exact absurd rfl (hne rq)
      | reset => exact .inl rfl
      | resetDuring rq => exact .inr ⟨rq, rfl⟩
    exact ⟨_, step_of_reset_or_resetDuring hp hact, rfl, rfl⟩

/-- Settles O31: `wordAfter_KV` for a command; a reset clears `KV`, and an idle step leaves it. -/
theorem keyValidIsSetByKeyexpAndClearedByReset : Obligations.KeyValidIsSetByKeyexpAndClearedByReset := by
  unfold Obligations.KeyValidIsSetByKeyexpAndClearedByReset
  intro s
  split
  next hp => exact ⟨s, step_of_idle hp, rfl⟩
  next rq rest hp => exact ⟨_, step_of_word hp, wordAfter_KV _ _⟩
  next rest hp => exact ⟨_, step_of_reset hp, rfl⟩
  next rq rest hp => exact ⟨_, step_of_resetDuring hp, rfl⟩

/-- The word of a command that writes `S` without an error: the nine words without an operand, and those of ARK with a round
index other than 15 (R20). -/
theorem encode_of_writesS {i : Instr} (hw : i.wellFormed = true) (hS : writesS i = true) {kv : Bool}
    (hc : commandCode i kv = .eNone) :
    encode i ∈ [0x00000010, 0x00000030, 0x00000031, 0x00000032, 0x00000033, 0x00000034, 0x00000035, 0x00000040, 0x00000041] ∨
      (encode i &&& 0xFFFFF0FF = 0x00000036 ∧ (encode i).extractLsb' 8 4 ≠ 15) := by
  cases i with
  | keyexp | rdrk | rds | rdstat | gfmul => cases hS
  | lds | sub | invsub | shr | invshr | mix | invmix | enc | dec => exact .inl (by decide)
  | ark k =>
    obtain ⟨hk, -⟩ := index_and_key_of_roundCode hc
    have hrow : ∀ row ∈ opcodeMap, row.mnemonic = "ARK" → row = ⟨"ARK", 0x00000036, 0xFFFFF0FF⟩ := by decide
    obtain ⟨row, hmem, hm, hs⟩ := Laws.EncodedRow.ark k hw
    obtain rfl := hrow row hmem hm
    have hfield : (encode (.ark k)).extractLsb' 8 4 = BitVec.ofNat 4 k := kField_formatK _ _
    refine .inr ⟨beq_iff_eq.mp hs, ?_⟩
    rw [hfield, ne_eq, ofNat_eq_15_iff (by omega)]
    omega

/-- Settles O32: an error and a command of another kind leave `S`, and a command that writes it answers no error. -/
theorem stateRegisterWriters : Obligations.StateRegisterWriters := by
  unfold Obligations.StateRegisterWriters
  intro s t rq rest hp hstep hS
  cases hd : decode rq.cmd with
  | illegal e =>
    rw [step_of_illegal hp hd] at hstep
    cases hstep
    exact absurd rfl hS
  | command i =>
    obtain ⟨u, hu, hcases⟩ := exec_cases i { s with bus := rq, pending := rest }
    obtain rfl : t = u := Host.Outcome.next.inj (hstep.symm.trans ((step_of_command hp hd).trans hu))
    obtain ⟨-, rfl⟩ | ⟨-, rfl⟩ | ⟨hc, hwrites, b, rfl⟩ | ⟨-, -, d, rfl⟩ | ⟨-, rfl⟩ := hcases
    · exact absurd (State.afterError_S _ _) hS
    · exact absurd (State.afterSuccess_S _ _) hS
    · have hword := encode_of_writesS (wellFormed_of_decode hd) hwrites hc
      rw [encode_of_decode hd] at hword
      exact ⟨hword, rfl, rfl, rfl, rfl⟩
    · exact absurd (State.afterSuccess_S _ _) hS
    · exact absurd rfl hS

/-- Settles O37: `wordAfter_withBus` and `wordAfter_withResponses` for a command; every action replaces the whole bus. -/
theorem commandDependsOnlyOnItsInputs : Obligations.CommandDependsOnlyOnItsInputs := by
  unfold Obligations.CommandDependsOnlyOnItsInputs
  refine ⟨fun s cmd din din' kin kin' rest hdin hkin => ?_, fun s b hp => ?_, fun s earlier => ?_⟩
  · have hstep (din' : BitVec 128) (kin' : BitVec 256) (hdin : cmd = 0x00000010 → din = din')
        (hkin : cmd = 0x00200001 → kin = kin') : step { s with pending := .command ⟨cmd, din', kin'⟩ :: rest } =
          .next { wordAfter cmd { s with bus := ⟨cmd, din, kin⟩, pending := rest } with bus := ⟨cmd, din', kin'⟩ } :=
      (step_of_word rfl).trans (congrArg _ (wordAfter_withBus { s with pending := rest } hdin hkin))
    exact ⟨_, hstep din kin (fun _ => rfl) fun _ => rfl, hstep din' kin' hdin hkin⟩
  · obtain hnil | ⟨act, rest, hp, hact⟩ | ⟨rq, rest, hp⟩ := pending_cases s
    · exact absurd hnil hp
    · rw [step_of_reset_or_resetDuring hp hact, step_of_reset_or_resetDuring (s := { s with bus := b }) hp hact]
    · rw [step_of_word hp, step_of_word (s := { s with bus := b }) hp]
  · obtain hp | ⟨act, rest, hp, hact⟩ | ⟨rq, rest, hp⟩ := pending_cases s
    · exact ⟨_, step_of_idle hp, step_of_idle hp⟩
    · exact ⟨_, step_of_reset_or_resetDuring hp hact, step_of_reset_or_resetDuring hp hact⟩
    · refine ⟨_, step_of_word hp, (step_of_word (s := { s with responses := earlier ++ s.responses }) hp).trans ?_⟩
      exact congrArg _ (wordAfter_withResponses rq.cmd { s with bus := rq, pending := rest } earlier)

/-- One state stands for the step of an action, whatever the host does later (R50). -/
theorem exists_step_forall_later (s : State) (act : HostAction) :
    ∃ t : State, ∀ later, step { s with pending := act :: later } = .next { t with pending := later } := by
  cases act with
  | reset => exact ⟨{ State.reset with responses := s.responses }, fun _ => step_of_reset rfl⟩
  | resetDuring rq => exact ⟨{ State.reset with responses := s.responses }, fun _ => step_of_resetDuring rfl⟩
  | command rq =>
    exact ⟨wordAfter rq.cmd { s with bus := rq }, fun later =>
      (step_of_word rfl).trans (congrArg _ (wordAfter_withPending rq.cmd { s with bus := rq } later))⟩

/-- Settles O38: the one state of `exists_step_forall_later`, for both lists of later actions. -/
theorem laterActionsDoNotMatter : Obligations.LaterActionsDoNotMatter := by
  unfold Obligations.LaterActionsDoNotMatter
  intro s act rest rest'
  obtain ⟨t, ht⟩ := exists_step_forall_later s act
  exact ⟨t, ht rest, ht rest'⟩

/-- Settles O39: `wordAfter_withLastErr`. -/
theorem errorsAreNotSticky : Obligations.ErrorsAreNotSticky := by
  unfold Obligations.ErrorsAreNotSticky
  intro s e rq rest hp hne
  rw [step_of_word hp, step_of_word (s := { s with LAST_ERR := e }) hp]
  exact congrArg _ (wordAfter_withLastErr { s with bus := rq, pending := rest } hne e)

/-- RDS and RDRK write only `LAST_ERR` and the response, which `S`, `RK` and `KV` determine (R48). -/
theorem exists_answer_of_read {i : Instr} (hi : i = .rds ∨ ∃ k, i = .rdrk k) (s : State) :
    ∃ r : Response, ∀ t : State, t.S = s.S → t.RK = s.RK → t.KV = s.KV →
      exec i t = .next { t with LAST_ERR := r.resp, responses := t.responses ++ [r] } := by
  obtain rfl | ⟨k, rfl⟩ := hi
  · refine ⟨⟨0, busOfBlock s.S⟩, fun t hS _ _ => ?_⟩
    have hrds : exec .rds t = .next (t.afterSuccess (busOfBlock s.S)) := by rw [exec_rds, hS]
    exact hrds
  · by_cases hc : commandCode (.rdrk k) s.KV = .eNone
    · refine ⟨⟨0, busOfBlock (roundKey s.RK (Fin.ofNat 15 k))⟩, fun t _ hRK hKV => ?_⟩
      have hrdrk : exec (.rdrk k) t = .next (t.afterSuccess (busOfBlock (roundKey s.RK (Fin.ofNat 15 k)))) := by
        rw [exec_of_success (hKV ▸ hc), completedState, hRK]
      exact hrdrk
    · refine ⟨⟨(commandCode (.rdrk k) s.KV).bits, 0⟩, fun t _ _ hKV => ?_⟩
      have hrdrk : exec (.rdrk k) t = .next (t.afterError (commandCode (.rdrk k) s.KV).bits) := by
        rw [exec_of_error (hKV ▸ hc), hKV]
      exact hrdrk

/-- Settles O40: a read leaves what determines its answer, so it answers the same again. -/
theorem readsLeaveWhatTheyRead : Obligations.ReadsLeaveWhatTheyRead := by
  unfold Obligations.ReadsLeaveWhatTheyRead
  have htwo (s : State) (r : Response) : s.responses ++ [r] ++ [r] = s.responses ++ [r, r] := List.append_assoc ..
  have hread (i : Instr) (s : State) (hi : i = .rds ∨ ∃ k, i = .rdrk k) (hne : i ≠ .rdstat) :
      ∃ t u r, exec i s = .next t ∧ exec i t = .next u ∧
        t.responses = s.responses ++ [r] ∧ u.responses = s.responses ++ [r, r] ∧
        t.S = s.S ∧ t.RK = s.RK ∧ t.KV = s.KV ∧ t.LAST_ERR = if i = .rdstat then s.LAST_ERR else r.resp := by
    obtain ⟨r, hr⟩ := exists_answer_of_read hi s
    exact ⟨_, _, r, hr s rfl rfl rfl, hr _ rfl rfl rfl, rfl, htwo s r, rfl, rfl, rfl, (if_neg hne).symm⟩
  rintro i s (rfl | rfl | ⟨k, -, rfl⟩)
  · exact hread .rds s (.inl rfl) nofun
  · exact ⟨_, _, _, exec_rdstat s, exec_rdstat _, rfl, htwo s _, rfl, rfl, rfl, rfl⟩
  · exact hread (.rdrk k) s (.inr ⟨k, rfl⟩) nofun

end Sys2Proof.Machine
end

section
/-!
Proofs: the invariant, at reset and along every step (10_state.md rule R25, 60_exceptions.md rules R160 and R161), and runs that
never stop (93_implementation_defined.md V14): O33 to O35.
-/

namespace Sys2Proof.Machine

/-! ## The invariant after each kind of command -/

/-- The response `r` has one of the five codes, and `DOUT = 0` if it reports an error (R160, R161). -/
def Response.Legal (r : Response) : Prop := r.resp.toNat ≤ 4 ∧ (r.resp ≠ 0 → r.dout = 0)

theorem Response.legal_success (d : BitVec 128) : Response.Legal ⟨0, d⟩ := ⟨Nat.zero_le 4, fun h => absurd rfl h⟩

theorem Response.legal_error {c : BitVec 4} (hc : c.toNat ≤ 4) : Response.Legal ⟨c, 0⟩ := ⟨hc, fun _ => rfl⟩

theorem legal_of_mem_append {rs : List Response} {r : Response} (hrs : ∀ q ∈ rs, q.Legal) (hr : r.Legal) :
    ∀ q ∈ rs ++ [r], q.Legal :=
  List.forall_mem_append.mpr ⟨hrs, List.forall_mem_singleton.mpr hr⟩

theorem Inv.afterSuccess {s : State} (h : Inv s) (d : BitVec 128) : Inv (s.afterSuccess d) where
  lastErr_le := Nat.zero_le 4
  keyed := h.keyed
  answered := legal_of_mem_append h.answered (Response.legal_success d)

theorem Inv.afterError {s : State} (h : Inv s) {c : BitVec 4} (hc : c.toNat ≤ 4) : Inv (s.afterError c) where
  lastErr_le := hc
  keyed := h.keyed
  answered := legal_of_mem_append h.answered (Response.legal_error hc)

/-- The invariant says nothing of `S`. -/
theorem Inv.withS {s : State} (h : Inv s) (b : Block) : Inv { s with S := b } := ⟨h.lastErr_le, h.keyed, h.answered⟩

/-- The invariant says nothing of the buses and of the host's later actions. -/
theorem Inv.withBus {s : State} (h : Inv s) (rq : Request) (rest : List HostAction) :
    Inv { s with bus := rq, pending := rest } := ⟨h.lastErr_le, h.keyed, h.answered⟩

theorem Inv.withKey {s : State} (h : Inv s) (key : Key) : Inv { s with RK := expandKey key, KV := true } :=
  ⟨h.lastErr_le, fun _ => ⟨key, rfl⟩, h.answered⟩

/-- Every command keeps the invariant, by what it can do. -/
theorem Inv.exec {s t : State} {i : Instr} (h : Inv s) (ht : exec i s = .next t) : Inv t := by
  obtain ⟨u, hu, hcases⟩ := exec_cases i s
  obtain rfl : t = u := Host.Outcome.next.inj (ht.symm.trans hu)
  obtain ⟨-, rfl⟩ | ⟨-, rfl⟩ | ⟨-, -, b, rfl⟩ | ⟨-, -, d, rfl⟩ | ⟨-, rfl⟩ := hcases
  · exact h.afterError (ErrCode.bits_le _)
  · exact (h.withKey _).afterSuccess 0
  · exact (h.withS b).afterSuccess 0
  · exact h.afterSuccess d
  · exact ⟨h.lastErr_le, h.keyed, legal_of_mem_append h.answered (Response.legal_success _)⟩

/-- The reset state has the invariant, with any legal responses before it (R180). -/
theorem inv_reset {rs : List Response} (hrs : ∀ r ∈ rs, r.Legal) (acts : List HostAction) :
    Inv { State.reset with pending := acts, responses := rs } where
  lastErr_le := Nat.zero_le 4
  keyed := nofun
  answered := hrs

theorem Inv.step {s t : State} (h : Inv s) (ht : step s = .next t) : Inv t := by
  obtain hp | ⟨act, rest, hp, hact⟩ | ⟨rq, rest, hp⟩ := pending_cases s
  · rw [step_of_idle hp] at ht
    exact Host.Outcome.next.inj ht ▸ h
  · rw [step_of_reset_or_resetDuring hp hact] at ht
    exact Host.Outcome.next.inj ht ▸ inv_reset h.answered rest
  · cases hd : decode rq.cmd with
    | command i => exact (h.withBus rq rest).exec ((step_of_command hp hd).symm.trans ht)
    | illegal e =>
      rw [step_of_illegal hp hd] at ht
      exact Host.Outcome.next.inj ht ▸ (h.withBus rq rest).afterError (by decide)

/-! ## The obligations -/

/-- Settles O33: the invariant along an idle step, a reset, a command and an illegal word. -/
theorem everyStepKeepsTheInvariant : Obligations.EveryStepKeepsTheInvariant := by
  unfold Obligations.EveryStepKeepsTheInvariant
  exact fun _ _ => Inv.step

/-- Settles O34: `LAST_ERR` and `KV` are 0 and nothing is answered. -/
theorem resetStateHasTheInvariant : Obligations.ResetStateHasTheInvariant := by
  unfold Obligations.ResetStateHasTheInvariant
  exact inv_reset (rs := []) nofun

theorem Reachable.inv {s : State} (h : Reachable s) : Inv s := by
  induction h with
  | start acts => exact inv_reset (rs := []) nofun acts
  | step _ hs ih => exact ih.step hs

/-- A run of any length goes on: no step stops (V14). -/
theorem neverStops (s : State) : NeverStops s := by
  intro n
  induction n generalizing s with
  | zero => exact ⟨s, rfl⟩
  | succ n ih =>
    obtain ⟨t, ht⟩ := exists_step s
    rw [run_succ_of_step ht]
    exact ih t

/-- Settles O35: the invariant by induction over the steps since reset, and no state stops. -/
theorem reachableStatesAreSafe : Obligations.ReachableStatesAreSafe := by
  unfold Obligations.ReachableStatesAreSafe
  exact fun s h => ⟨h.inv, neverStops s⟩

end Sys2Proof.Machine
end

section
/-!
Proofs: while `KV = 0` the contents of `RK` cannot be told (10_state.md rule R24): O36.
-/

namespace Sys2Proof.Machine

/-- The states `s` and `u` agree but for `RK`, and in `RK` too once a key is loaded. -/
def AgreeButForRK (s u : State) : Prop := { u with RK := s.RK } = s ∧ (s.KV = true → u.RK = s.RK)

theorem AgreeButForRK.refl (s : State) : AgreeButForRK s s := ⟨rfl, fun _ => rfl⟩

theorem agreeButForRK_of_noKey {s u : State} (h : s.KV = false) (hu : { u with RK := s.RK } = s) : AgreeButForRK s u :=
  ⟨hu, fun hkv => nomatch h.symm.trans hkv⟩

/-- Two states that agree are equal, or there is no key and one is the other with other contents of `RK`. -/
theorem AgreeButForRK.cases {s u : State} (h : AgreeButForRK s u) : u = s ∨ (s.KV = false ∧ ∃ rk, u = { s with RK := rk }) := by
  obtain ⟨hu, hRK⟩ := h
  obtain hkv | hkv := Bool.eq_false_or_eq_true s.KV
  · rw [← hRK hkv] at hu
    exact .inl hu
  · exact .inr ⟨hkv, u.RK, congrArg (fun t : State => { t with RK := u.RK }) hu⟩

/-- Without a key no command reads `RK`, and KEYEXP replaces all of it (R23, R24). -/
theorem stateAfter_agreeButForRK (i : Instr) {s : State} (h : s.KV = false) (rk : RoundKeyFile) :
    AgreeButForRK (stateAfter i s) (stateAfter i { s with RK := rk }) := by
  unfold stateAfter
  dsimp only
  generalize expandKey (keyOfBus s.bus.kin) = loaded
  split
  next hc =>
    rw [h] at hc
    cases i with
    | keyexp l => exact .refl _
    | rdrk k => cases (index_and_key_of_roundCode hc).2
    | ark k => cases (index_and_key_of_roundCode hc).2
    | enc | dec => cases hc
    | lds | rds | rdstat | gfmul | sub | invsub | shr | invshr | mix | invmix => exact agreeButForRK_of_noKey h rfl
  next => exact agreeButForRK_of_noKey h rfl

theorem wordAfter_agreeButForRK (w : BitVec 32) {s : State} (h : s.KV = false) (rk : RoundKeyFile) :
    AgreeButForRK (wordAfter w s) (wordAfter w { s with RK := rk }) := by
  cases hd : decode w with
  | command i =>
    rw [wordAfter_of_command hd, wordAfter_of_command hd]
    exact stateAfter_agreeButForRK i h rk
  | illegal e =>
    rw [wordAfter_of_illegal hd, wordAfter_of_illegal hd]
    exact agreeButForRK_of_noKey h rfl

/-- A step keeps the agreement: without a key it reads no round key, and a reset replaces `RK`. -/
theorem AgreeButForRK.step {s u : State} (h : AgreeButForRK s u) :
    ∃ t v, step s = .next t ∧ step u = .next v ∧ AgreeButForRK t v := by
  obtain rfl | ⟨hkv, rk, rfl⟩ := h.cases
  · obtain ⟨t, ht⟩ := exists_step u
    exact ⟨t, t, ht, ht, .refl t⟩
  · obtain hp | ⟨act, rest, hp, hact⟩ | ⟨rq, rest, hp⟩ := pending_cases s
    · exact ⟨_, _, step_of_idle hp, step_of_idle hp, h⟩
    · exact ⟨_, _, step_of_reset_or_resetDuring hp hact, step_of_reset_or_resetDuring hp hact, .refl _⟩
    · exact ⟨_, _, step_of_word hp, step_of_word hp,
        wordAfter_agreeButForRK rq.cmd (s := { s with bus := rq, pending := rest }) hkv rk⟩

theorem AgreeButForRK.run {s u : State} (h : AgreeButForRK s u) (n : Nat) :
    ∃ t v, run n s = .next t ∧ run n u = .next v ∧ AgreeButForRK t v := by
  induction n generalizing s u with
  | zero => exact ⟨s, u, rfl, rfl, h⟩
  | succ n ih =>
    obtain ⟨s', u', hs, hu, h'⟩ := h.step
    rw [run_succ_of_step hs, run_succ_of_step hu]
    exact ih h'

/-- Settles O36: the agreement holds at the start, since there is no key, and every step keeps it. -/
theorem roundKeysAreUnobservableWithoutKey : Obligations.RoundKeysAreUnobservableWithoutKey := by
  unfold Obligations.RoundKeysAreUnobservableWithoutKey
  intro n s rk hkv
  exact (agreeButForRK_of_noKey (u := { s with RK := rk }) hkv rfl).run n

end Sys2Proof.Machine
end

section
/-!
Proofs: each pipeline undoes the other, as functions and as commands (43_pipelines.md rule R144), and row shifts in a row
(42_round_transforms.md rules R122 and R123): O50 and O52.
-/

namespace Sys2Proof.Machine

/-- Three row shifts move row `r` by `3r`, which is `-r` modulo 4 (R123). -/
theorem shiftRows_three (b : Block) : shiftRows (shiftRows (shiftRows b)) = invShiftRows b :=
  Block.ext_byte fun c r => by
    have hidx : c + r + r + r = c - r := by revert c r; decide
    rw [byte_shiftRows, byte_shiftRows, byte_shiftRows, byte_invShiftRows, hidx]

theorem execAll_shr_three (s : State) :
    ∃ u, execAll [.shr, .shr, .shr] s = .next u ∧ u.S = shiftRows (shiftRows (shiftRows s.S)) :=
  ⟨_, (execAll_cons (shr_appliesToS s) _).trans (execAll_pair (shr_appliesToS _) (shr_appliesToS _)), rfl⟩

/-- Settles O50: three row shifts are the inverse one, and a fourth undoes it. -/
theorem rowShiftsCompose : Obligations.RowShiftsCompose := by
  unfold Obligations.RowShiftsCompose
  refine ⟨fun s => ?_, fun s => ?_⟩
  · obtain ⟨u, hu, huS⟩ := execAll_shr_three s
    refine ⟨_, (execAll_append hu [.shr]).trans (execAll_cons (shr_appliesToS u) []), (congrArg shiftRows huS).trans ?_⟩
    rw [shiftRows_three, invShiftRows_shiftRows]
  · obtain ⟨u, hu, huS⟩ := execAll_shr_three s
    exact ⟨_, u, invshr_appliesToS s, hu, by rw [State.afterSuccess_S, huS, shiftRows_three]⟩

/-- Settles O52: each pipeline undoes the other, so each is a bijection; a command leaves `RK` and `KV` to the next one. -/
theorem decryptionUndoesEncryption : Obligations.DecryptionUndoesEncryption := by
  unfold Obligations.DecryptionUndoesEncryption
  refine ⟨fun b rk => ⟨invCipher_cipher b rk, cipher_invCipher b rk⟩, fun rk => ?_, fun s hkv => ?_⟩
  · exact Function.bijective_iff_has_inverse.mpr
      ⟨fun b => invCipher b rk, fun b => invCipher_cipher b rk, fun b => cipher_invCipher b rk⟩
  · exact ⟨_, _, execAll_pair (execEnc_of_key hkv) (execDec_of_key hkv), invCipher_cipher s.S s.RK,
      execAll_pair (execDec_of_key hkv) (execEnc_of_key hkv), cipher_invCipher s.S s.RK⟩

end Sys2Proof.Machine
end

section
/-!
Proofs: the two pipelines as sequences of 56 commands, with a key and without one (43_pipelines.md rule R145): O53.
-/

namespace Sys2Proof.Machine

/-! ## What a sequence of commands does to `S` -/

/-- The response of a command that answers no data. -/
def codeAnswer (kv : Bool) (i : Instr) : Response := ⟨(commandCode i kv).bits, 0⟩

/-- From every state with `KV = kv`, the commands `is` replace `S` by `f RK S`, each answers its code, and nothing else changes
but `LAST_ERR`, which is 0 with a key. -/
def Performs (kv : Bool) (is : List Instr) (f : RoundKeyFile → Block → Block) : Prop :=
  ∀ s : State, s.KV = kv → ∃ e, (kv = true → e = 0) ∧
    execAll is s =
      .next { s with S := f s.RK s.S, LAST_ERR := e, responses := s.responses ++ is.map (codeAnswer kv) }

section
variable {kv : Bool} {is js : List Instr} {f g : RoundKeyFile → Block → Block}

theorem Performs.append (hf : Performs kv is f) (hg : Performs kv js g) :
    Performs kv (is ++ js) fun rk b => g rk (f rk b) := by
  intro s hs
  obtain ⟨e, -, hfirst⟩ := hf s hs
  obtain ⟨e', he', hsecond⟩ := hg { s with S := f s.RK s.S, LAST_ERR := e, responses := s.responses ++ is.map (codeAnswer kv) } hs
  refine ⟨e', he', ?_⟩
  rw [execAll_append hfirst, hsecond, List.append_assoc, ← List.map_append]

/-- A sequence made of one part for each round: its effect folds over the rounds. -/
theorem Performs.append_flatMap {κ : Type} {part : κ → List Instr} {effect : κ → RoundKeyFile → Block → Block}
    (hf : Performs kv is f) (hpart : ∀ k, Performs kv (part k) (effect k)) (ks : List κ) :
    Performs kv (is ++ ks.flatMap part) fun rk b => ks.foldl (fun b k => effect k rk b) (f rk b) := by
  induction ks generalizing is f with
  | nil => rwa [List.flatMap_nil, List.append_nil]
  | cons k ks ih =>
    rw [List.flatMap_cons, ← List.append_assoc]
    exact ih (hf.append (hpart k))

end

theorem AppliesToS.performs {i : Instr} {f : Block → Block} (hi : AppliesToS i f) {kv : Bool} (hc : commandCode i kv = .eNone) :
    Performs kv [i] fun _ => f := by
  intro s _
  refine ⟨0, fun _ => rfl, (execAll_cons (hi s) []).trans ?_⟩
  rw [List.map_singleton, codeAnswer, hc]
  rfl

/-- What ARK makes of `S`: without a key it leaves it (R126). -/
def arkEffect (kv : Bool) (k : Fin 15) (rk : RoundKeyFile) (b : Block) : Block :=
  if kv then addRoundKey b (roundKey rk k) else b

theorem ark_performs (kv : Bool) (k : Fin 15) : Performs kv [.ark k] (arkEffect kv k) := by
  have hk : ¬ 14 < k.val := by omega
  intro s hs
  cases kv with
  | true =>
    refine ⟨0, fun _ => rfl, (execAll_cons (i := .ark k) (execArk_of_key k hs) []).trans ?_⟩
    simp only [List.map_singleton, codeAnswer, commandCode, if_neg hk]
    rfl
  | false =>
    refine ⟨2, nofun, (execAll_cons (i := .ark k) (execArk_of_noKey k hs) []).trans ?_⟩
    simp only [List.map_singleton, codeAnswer, commandCode, if_neg hk]
    rfl

/-! ## The two sequences -/

theorem encSequence_eq : encSequence = finitSeq ++ fullRounds.flatMap (fun k => froundSeq k) ++ flastSeq := by decide

theorem decSequence_eq : decSequence = iinitSeq ++ fullRounds.reverse.flatMap (fun k => iroundSeq k) ++ ilastSeq := by decide

section
variable (kv : Bool)

/-- The byte substitution and the row shift, which every forward round begins with. -/
theorem sub_shr_performs : Performs kv [.sub, .shr] fun _ => subShift :=
  (sub_appliesToS.performs rfl).append (shr_appliesToS.performs rfl)

theorem invshr_invsub_performs : Performs kv [.invshr, .invsub] fun _ => invShiftSub :=
  (invshr_appliesToS.performs rfl).append (invsub_appliesToS.performs rfl)

theorem froundSeq_performs (k : Fin 15) :
    Performs kv (froundSeq k) fun rk b => arkEffect kv k rk (mixColumns (subShift b)) :=
  ((sub_shr_performs kv).append (mix_appliesToS.performs rfl)).append (ark_performs kv k)

theorem iroundSeq_performs (k : Fin 15) :
    Performs kv (iroundSeq k) fun rk b => invMixColumns (arkEffect kv k rk (invShiftSub b)) :=
  ((invshr_invsub_performs kv).append (ark_performs kv k)).append (invmix_appliesToS.performs rfl)

theorem encSequence_performs : Performs kv encSequence fun rk b =>
    arkEffect kv 14 rk (subShift
      (fullRounds.foldl (fun b k => arkEffect kv k rk (mixColumns (subShift b))) (arkEffect kv 0 rk b))) := by
  rw [encSequence_eq]
  exact ((ark_performs kv 0).append_flatMap (froundSeq_performs kv) fullRounds).append
    ((sub_shr_performs kv).append (ark_performs kv 14))

theorem decSequence_performs : Performs kv decSequence fun rk b =>
    arkEffect kv 0 rk (invShiftSub
      (fullRounds.reverse.foldl (fun b k => invMixColumns (arkEffect kv k rk (invShiftSub b))) (arkEffect kv 14 rk b))) := by
  rw [decSequence_eq]
  exact ((ark_performs kv 14).append_flatMap (iroundSeq_performs kv) fullRounds.reverse).append
    ((invshr_invsub_performs kv).append (ark_performs kv 0))

end

/-- Without a key the commands of both sequences that fail are the ARKs (R145). -/
theorem codeAnswer_noKey : ∀ i ∈ encSequence ++ decSequence, codeAnswer false i = ⟨if i.mnemonic = "ARK" then 2 else 0, 0⟩ := by
  decide

/-- Settles O53: with a key each sequence performs the rounds of its pipeline, and without one the rounds without their key
additions. -/
theorem pipelinesEqualPrimitiveSequences : Obligations.PipelinesEqualPrimitiveSequences := by
  unfold Obligations.PipelinesEqualPrimitiveSequences
  have answers {is : List Instr} (his : is ⊆ encSequence ++ decSequence) :
      is.map (codeAnswer false) = is.map fun i => ⟨if i.mnemonic = "ARK" then 2 else 0, 0⟩ :=
    List.map_congr_left fun i hi => codeAnswer_noKey i (his hi)
  refine ⟨by decide, by decide, fun s hkv => ?_, fun s hkv => ?_,
    fun s hkv => ⟨execEnc_of_noKey hkv, execDec_of_noKey hkv, ?_, ?_⟩⟩
  · obtain ⟨e, he, hu⟩ := encSequence_performs true s hkv
    exact ⟨_, _, execEnc_of_key hkv, hu, rfl, he rfl⟩
  · obtain ⟨e, he, hu⟩ := decSequence_performs true s hkv
    exact ⟨_, _, execDec_of_key hkv, hu, rfl, he rfl⟩
  · obtain ⟨e, -, hu⟩ := encSequence_performs false s hkv
    exact ⟨_, hu, rfl, congrArg _ (answers (List.subset_append_left _ _))⟩
  · obtain ⟨e, -, hu⟩ := decSequence_performs false s hkv
    exact ⟨_, hu, rfl, congrArg _ (answers (List.subset_append_right _ _))⟩

end Sys2Proof.Machine
end

section
/-!
Proofs: what runs of the host's commands answer (70_reset_and_hazards.md rules R182 and R183, 30_encoding.md rule R74): O41, O54
and O55.
-/

namespace Sys2Proof.Machine

/-! ## One step of a run -/

/-- With a key, the command `i` replaces `S` by `f S RK` and changes nothing else but `LAST_ERR`. -/
def AppliesWithKey (i : Instr) (f : Block → RoundKeyFile → Block) : Prop :=
  ∀ s : State, s.KV = true → exec i s = .next ({ s with S := f s.S s.RK }.afterSuccess 0)

theorem enc_appliesWithKey : AppliesWithKey .enc cipher := fun _ => execEnc_of_key
theorem dec_appliesWithKey : AppliesWithKey .dec invCipher := fun _ => execDec_of_key

section
variable {s : State} {rest : List HostAction}

/-- The step of `KEYEXP 32` loads the key on `KIN`, and leaves `S` (R96). -/
theorem exists_step_keyexp {kin : BitVec 256} (hp : s.pending = .command (keyexpRequest 32 kin) :: rest) :
    ∃ t, step s = .next t ∧ t.S = s.S ∧ t.RK = expandKey (keyOfBus kin) ∧ t.KV = true ∧ t.pending = rest ∧
      t.responses = s.responses ++ [⟨0, 0⟩] := by
  refine ⟨_, (step_of_command hp decode_keyexp256_word).trans (execKeyexp_of_length _), ?_⟩
  dsimp only [keyexpRequest]
  generalize expandKey (keyOfBus kin) = rk
  exact ⟨rfl, rfl, rfl, rfl, rfl⟩

/-- The step of LDS loads the block on `DIN`, and leaves the key (R150). -/
theorem exists_step_lds {x : BitVec 128} (hp : s.pending = .command (ldsRequest x) :: rest) :
    ∃ t, step s = .next t ∧ t.S = blockOfBus x ∧ t.RK = s.RK ∧ t.KV = s.KV ∧ t.pending = rest ∧
      t.responses = s.responses ++ [⟨0, 0⟩] :=
  ⟨_, (step_of_command hp decode_lds_word).trans (exec_lds _), rfl, rfl, rfl, rfl, rfl⟩

/-- The step of a pipeline command with a key (R142, R143). -/
theorem AppliesWithKey.exists_step {i : Instr} {f : Block → RoundKeyFile → Block} (hf : AppliesWithKey i f)
    (hi : i.wellFormed = true) (hkv : s.KV = true) (hp : s.pending = .command (plainRequest i) :: rest) :
    ∃ t, step s = .next t ∧ t.S = f s.S s.RK ∧ t.RK = s.RK ∧ t.KV = true ∧ t.pending = rest ∧
      t.responses = s.responses ++ [⟨0, 0⟩] :=
  ⟨_, (step_of_command hp (decode_encode hi)).trans (hf _ hkv), rfl, rfl, hkv, rfl, rfl⟩

/-- The step of RDS answers `S`, and leaves the key (R151). -/
theorem exists_step_rds (hp : s.pending = .command (plainRequest .rds) :: rest) :
    ∃ t, step s = .next t ∧ t.RK = s.RK ∧ t.KV = s.KV ∧ t.pending = rest ∧
      t.responses = s.responses ++ [⟨0, busOfBlock s.S⟩] :=
  ⟨_, (step_of_command (i := .rds) hp (decode_encode (i := .rds) rfl)).trans (exec_rds _), rfl, rfl, rfl, rfl⟩

end

/-- Settles O41: each step's state is where the next one starts. -/
theorem effectsReachTheNextCommand : Obligations.EffectsReachTheNextCommand := by
  unfold Obligations.EffectsReachTheNextCommand
  refine ⟨fun s x hkv => ?_, fun s k1 => ?_, fun s k1 k2 => ?_⟩
  · obtain ⟨t, ht, htS, htRK, htkv, htp, -⟩ := exists_step_lds
      (s := s.withCommands [⟨0x00000010, x, 0⟩, ⟨0x00000040, 0, 0⟩]) rfl
    obtain ⟨u, hu, huS, -⟩ := enc_appliesWithKey.exists_step rfl (htkv.trans hkv) htp
    refine ⟨u, (run_succ_of_step ht 1).trans (run_succ_of_step hu 0), ?_⟩
    rw [huS, htS, htRK]
    rfl
  · obtain ⟨t, ht, htS, htRK, htkv, htp, -⟩ := exists_step_keyexp
      (s := s.withCommands [⟨0x00200001, 0, k1⟩, ⟨0x00000040, 0, 0⟩]) rfl
    obtain ⟨u, hu, huS, -⟩ := enc_appliesWithKey.exists_step rfl htkv htp
    refine ⟨u, (run_succ_of_step ht 1).trans (run_succ_of_step hu 0), ?_⟩
    rw [huS, htS, htRK]
    rfl
  · obtain ⟨t, ht, htS, -, -, htp, -⟩ := exists_step_keyexp
      (s := s.withCommands [⟨0x00200001, 0, k1⟩, ⟨0x00200001, 0, k2⟩, ⟨0x00000040, 0, 0⟩]) rfl
    obtain ⟨u, hu, huS, huRK, hukv, hup, -⟩ := exists_step_keyexp htp
    obtain ⟨v, hv, hvS, hvRK, -⟩ := enc_appliesWithKey.exists_step rfl hukv hup
    refine ⟨v, (run_succ_of_step ht 2).trans ((run_succ_of_step hu 1).trans (run_succ_of_step hv 0)), ?_, hvRK.trans huRK⟩
    rw [hvS, huS, htS, huRK]
    rfl

/-! ## ENCRYPT and DECRYPT -/

/-- With a key, LDS, a pipeline command and RDS answer what the pipeline makes of the block on `DIN`, and leave the key (R74). -/
theorem run_load_apply_read {i : Instr} {f : Block → RoundKeyFile → Block} (hi : i.wellFormed = true) (hf : AppliesWithKey i f)
    {s : State} (hkv : s.KV = true) {x : BitVec 128} {rest : List HostAction}
    (hp : s.pending = .command (ldsRequest x) :: .command (plainRequest i) :: .command (plainRequest .rds) :: rest) :
    ∃ t, run 3 s = .next t ∧ t.RK = s.RK ∧ t.KV = true ∧ t.pending = rest ∧
      t.responses = s.responses ++ [⟨0, 0⟩, ⟨0, 0⟩, ⟨0, busOfBlock (f (blockOfBus x) s.RK)⟩] := by
  obtain ⟨t, ht, htS, htRK, htkv, htp, htr⟩ := exists_step_lds hp
  obtain ⟨u, hu, huS, huRK, hukv, hup, hur⟩ := hf.exists_step hi (htkv.trans hkv) htp
  obtain ⟨v, hv, hvRK, hvkv, hvp, hvr⟩ := exists_step_rds hup
  refine ⟨v, (run_succ_of_step ht 2).trans ((run_succ_of_step hu 1).trans (run_succ_of_step hv 0)),
    hvRK.trans (huRK.trans htRK), hvkv.trans hukv, hvp, ?_⟩
  rw [hvr, hur, htr, huS, htS, htRK, List.append_assoc, List.append_assoc]
  rfl

/-- Settles O54: the answer of ENCRYPT goes back through DECRYPT under the same round keys. -/
theorem encryptThenDecryptAnswersTheBlock : Obligations.EncryptThenDecryptAnswersTheBlock := by
  unfold Obligations.EncryptThenDecryptAnswersTheBlock
  intro s x hkv
  obtain ⟨t, ht, htRK, htkv, htp, htr⟩ := run_load_apply_read (i := .enc) rfl enc_appliesWithKey
    (s := s.withCommands ((AsmLine.encrypt x).requests ++ (AsmLine.decrypt (busOfBlock (cipher (blockOfBus x) s.RK))).requests))
    hkv rfl
  obtain ⟨u, hu, huRK, hukv, -, hur⟩ := run_load_apply_read (i := .dec) rfl dec_appliesWithKey htkv htp
  have hy : busOfBlock (invCipher (blockOfBus (busOfBlock (cipher (blockOfBus x) s.RK))) t.RK) = x := by
    rw [htRK, blockOfBus_busOfBlock]
    exact (congrArg busOfBlock (invCipher_cipher _ _)).trans (busOfBlock_blockOfBus x)
  refine ⟨_, u, (run_add ht 3).trans hu, rfl, ?_, huRK.trans htRK, hukv⟩
  rw [hur, htr, hy, List.append_assoc]
  rfl

/-- From reset, `KEYEXP 32` and then LDS, a pipeline command and RDS answer what the pipeline makes of the block under the key's
expansion (R182). -/
theorem run_keyexp_load_apply_read {i : Instr} {f : Block → RoundKeyFile → Block} (hi : i.wellFormed = true)
    (hf : AppliesWithKey i f) (key : BitVec 256) (x : BitVec 128) :
    ∃ t, run 4 (State.reset.withCommands [keyexpRequest 32 key, ldsRequest x, plainRequest i, plainRequest .rds]) = .next t ∧
      t.responses = [⟨0, 0⟩, ⟨0, 0⟩, ⟨0, 0⟩, ⟨0, busOfBlock (f (blockOfBus x) (expandKey (keyOfBus key)))⟩] := by
  obtain ⟨t, ht, -, htRK, htkv, htp, htr⟩ := exists_step_keyexp
    (s := State.reset.withCommands [keyexpRequest 32 key, ldsRequest x, plainRequest i, plainRequest .rds]) rfl
  obtain ⟨u, hu, -, -, -, hur⟩ := run_load_apply_read hi hf htkv htp
  refine ⟨u, (run_succ_of_step ht 3).trans hu, ?_⟩
  rw [hur, htr, htRK]
  rfl

/-- Settles O55: KEYEXP loads the key, and the pipeline runs under its expansion. -/
theorem fromResetToCiphertext : Obligations.FromResetToCiphertext := by
  unfold Obligations.FromResetToCiphertext
  exact fun key x =>
    ⟨run_keyexp_load_apply_read rfl enc_appliesWithKey key x, run_keyexp_load_apply_read rfl dec_appliesWithKey key x⟩

end Sys2Proof.Machine
end

section
/-!
Proofs: inverses under the field product, the field laws (40_gf_multiply.md rule R81), and the S-box tables as the affine map of
the field inverse (42_round_transforms.md rule R112): O42 and O48.
-/

namespace Sys2Proof.Machine

/-! ## Inverses -/

/-- The affine map of R112. -/
def sboxAffine (b : Byte) : Byte :=
  b ^^^ b.rotateLeft 1 ^^^ b.rotateLeft 2 ^^^ b.rotateLeft 3 ^^^ b.rotateLeft 4 ^^^ 0x63

/-- The map that the affine map undoes. -/
def sboxAffineInverse (y : Byte) : Byte := y.rotateLeft 1 ^^^ y.rotateLeft 3 ^^^ y.rotateLeft 6 ^^^ 0x05

theorem sboxAffine_sboxAffineInverse (y : Byte) : sboxAffine (sboxAffineInverse y) = y := by
  revert y
  decide +kernel

/-- The inverse of a byte, and 0 for 0, read off the forward S-box table. -/
def gfInverse (a : Byte) : Byte := sboxAffineInverse (sbox a)

/-- What is read off the table is the inverse, entry by entry. -/
theorem gfMul_gfInverse {a : Byte} (ha : a ≠ 0) : gfMul a (gfInverse a) = 1 := by
  revert a
  decide +kernel

/-- A nonzero byte has no other inverse: the product is associative (R81). -/
theorem eq_gfInverse_of_gfMul_eq_one {a b : Byte} (h : gfMul a b = 1) : b = gfInverse a := by
  have ha : a ≠ 0 := by
    rintro rfl
    rw [zero_gfMul] at h
    cases h
  calc b = gfMul b (gfMul a (gfInverse a)) := by rw [gfMul_gfInverse ha, gfMul_one]
    _ = gfInverse a := by rw [← gfMul_assoc, gfMul_comm b a, h, one_gfMul]

/-- Settles O42: the laws proved by additivity, and the inverse from the S-box table. -/
theorem gfMulFieldLaws : Obligations.GfMulFieldLaws := by
  unfold Obligations.GfMulFieldLaws
  exact ⟨fun a => ⟨gfMul_one a, gfMul_zero a⟩, gfMul_comm, gfMul_assoc, gfMul_xor,
    fun a ha => ⟨gfInverse a, gfMul_gfInverse ha, fun _ => eq_gfInverse_of_gfMul_eq_one⟩⟩

/-! ## The tables -/

/-- Every entry of the forward table is the affine map of the index's inverse (R112). -/
theorem sbox_eq_sboxAffine (x : Byte) : sbox x = sboxAffine (gfInverse x) := (sboxAffine_sboxAffineInverse (sbox x)).symm

theorem sbox_ne_self (x : Byte) : sbox x ≠ x := by
  revert x
  decide +kernel

/-- Settles O48: the tables undo each other, so they are bijections; a byte that passes the inverse's test is `gfInverse`. -/
theorem sboxTablesAgreeWithTheirChecks : Obligations.SboxTablesAgreeWithTheirChecks := by
  unfold Obligations.SboxTablesAgreeWithTheirChecks
  refine ⟨fun x => ⟨invSbox_sbox x, sbox_invSbox x⟩,
    Function.bijective_iff_has_inverse.mpr ⟨invSbox, invSbox_sbox, sbox_invSbox⟩,
    Function.bijective_iff_has_inverse.mpr ⟨sbox, sbox_invSbox, invSbox_sbox⟩, sbox_ne_self, fun x b hb => ?_⟩
  have hinverse : b = gfInverse x := by
    split at hb
    next hx =>
      rw [hb, hx]
      decide
    next => exact eq_gfInverse_of_gfMul_eq_one hb
  rw [hinverse]
  exact sbox_eq_sboxAffine x

end Sys2Proof.Machine
end

section
/-!
Proofs: the multiplier computes the product of polynomials over the two-element field modulo x^8 + x^4 + x^3 + x + 1
(40_gf_multiply.md rule R80): O44.
-/

namespace Sys2Proof.Machine

open Polynomial

/-- The modulus of the field (R80). -/
noncomputable abbrev rijndaelPoly : (ZMod 2)[X] := X ^ 8 + X ^ 4 + X ^ 3 + X + 1

/-- The polynomial of a byte's low `n` bits: bit `i` is the coefficient of x^i. It takes the bits in the order of the multiplier's
loop. -/
noncomputable def bitsPoly (n : Nat) (b : Byte) : (ZMod 2)[X] :=
  match n with
  | 0 => 0
  | n + 1 => (if b.getLsbD 0 then (1 : (ZMod 2)[X]) else 0) + X * bitsPoly n (b >>> 1)

/-- The field element of a byte. -/
noncomputable def fieldElem (b : Byte) : AdjoinRoot rijndaelPoly := AdjoinRoot.mk rijndaelPoly (bitsPoly 8 b)

/-! ## The polynomial of a byte -/

theorem coeff_bitsPoly (n : Nat) (b : Byte) (i : Nat) :
    (bitsPoly n b).coeff i = if i < n ∧ b.getLsbD i then 1 else 0 := by
  induction n generalizing b i with
  | zero => simp [bitsPoly]
  | succ n ih =>
    rw [bitsPoly]
    cases i with
    | zero => cases b.getLsbD 0 <;> simp
    | succ i => cases b.getLsbD 0 <;> simp [ih, coeff_one, Nat.add_comm 1 i]

theorem bitsPoly_xor (n : Nat) (a b : Byte) : bitsPoly n (a ^^^ b) = bitsPoly n a + bitsPoly n b := by
  ext i
  rw [coeff_add, coeff_bitsPoly, coeff_bitsPoly, coeff_bitsPoly, BitVec.getLsbD_xor]
  by_cases hi : i < n
  · have h2 : (1 : ZMod 2) + 1 = 0 := by decide
    cases a.getLsbD i <;> cases b.getLsbD i <;> simp [hi, h2]
  · simp [hi]

theorem bitsPoly_twoPow (i : Fin 8) : bitsPoly 8 (BitVec.twoPow 8 i) = X ^ i.val := by
  ext k
  rw [coeff_bitsPoly, coeff_X_pow, BitVec.getLsbD_twoPow]
  have hi := i.isLt
  by_cases hk : k = i.val
  · simp [hk]
  · simp [hk, Ne.symm hk]

theorem degree_bitsPoly_lt (n : Nat) (b : Byte) : (bitsPoly n b).degree < n := by
  rw [degree_lt_iff_coeff_zero]
  intro i hi
  rw [coeff_bitsPoly, if_neg (by omega)]

/-! ## The embedding -/

theorem fieldElem_xor (a b : Byte) : fieldElem (a ^^^ b) = fieldElem a + fieldElem b := by
  rw [fieldElem, bitsPoly_xor, map_add, fieldElem, fieldElem]

theorem fieldElem_zero : fieldElem 0 = 0 := by
  have h : fieldElem 0 = fieldElem 0 + fieldElem 0 := fieldElem_xor 0 0
  exact left_eq_add.mp h

theorem fieldElem_twoPow (i : Fin 8) : fieldElem (BitVec.twoPow 8 i) = AdjoinRoot.root rijndaelPoly ^ i.val := by
  rw [fieldElem, bitsPoly_twoPow, map_pow, AdjoinRoot.mk_X]

/-- A byte that the modulus divides is zero, since its polynomial has degree below 8. -/
theorem eq_zero_of_fieldElem_eq_zero {b : Byte} (h : fieldElem b = 0) : b = 0 := by
  have hdeg : rijndaelPoly.degree = 8 := by
    unfold rijndaelPoly
    compute_degree!
  have hpoly : bitsPoly 8 b = 0 :=
    eq_zero_of_dvd_of_degree_lt (AdjoinRoot.mk_eq_zero.mp h) (hdeg ▸ degree_bitsPoly_lt 8 b)
  apply BitVec.eq_of_getLsbD_eq
  intro i hi
  have hcoeff := congrArg (coeff · i) hpoly
  simpa [coeff_bitsPoly, hi] using hcoeff

theorem fieldElem_injective : Function.Injective fieldElem := by
  intro a b h
  have hsum : fieldElem (a ^^^ b) = 0 := by rw [fieldElem_xor, h, ZModModule.add_self]
  exact BitVec.xor_eq_zero_iff.mp (eq_zero_of_fieldElem_eq_zero hsum)

/-! ## The loop -/

/-- The modulus, read as an equation of its root. -/
theorem root_pow_eight : AdjoinRoot.root rijndaelPoly ^ 8 =
    AdjoinRoot.root rijndaelPoly ^ 4 + AdjoinRoot.root rijndaelPoly ^ 3 + AdjoinRoot.root rijndaelPoly + 1 := by
  have hmod : AdjoinRoot.mk rijndaelPoly rijndaelPoly = 0 := AdjoinRoot.mk_self
  simp only [map_add, map_pow, AdjoinRoot.mk_X, map_one, add_assoc] at hmod
  rw [eq_neg_of_add_eq_zero_left hmod, ZModModule.neg_eq_self]
  ring

/-- The shift step multiplies by x: the bit that leaves the byte is x^8, which is x^4 + x^3 + x + 1 (R82). -/
theorem fieldElem_xtime (a : Byte) : fieldElem (xtime a) = AdjoinRoot.root rijndaelPoly * fieldElem a := by
  induction a using Byte.xor_induction with
  | zero => rw [show xtime 0 = 0 from rfl, fieldElem_zero, mul_zero]
  | xor x y hx hy => rw [xtime_xor, fieldElem_xor, fieldElem_xor, hx, hy, mul_add]
  | bit i =>
    rw [fieldElem_twoPow, ← pow_succ']
    by_cases hi : i.val < 7
    · have hshift : xtime (BitVec.twoPow 8 i) = BitVec.twoPow 8 (i.val + 1) := by revert i; decide
      rw [hshift, fieldElem_twoPow ⟨i.val + 1, by omega⟩]
    · obtain rfl : i = 7 := by omega
      have hreduce : xtime (BitVec.twoPow 8 (7 : Fin 8)) =
          BitVec.twoPow 8 (4 : Fin 8) ^^^ BitVec.twoPow 8 (3 : Fin 8) ^^^ BitVec.twoPow 8 (1 : Fin 8) ^^^
            BitVec.twoPow 8 (0 : Fin 8) := by decide
      rw [hreduce, fieldElem_xor, fieldElem_xor, fieldElem_xor, fieldElem_twoPow, fieldElem_twoPow, fieldElem_twoPow,
        fieldElem_twoPow]
      simpa using root_pow_eight.symm

/-- The loop adds up the multiplicand times x^i for the bits `i` of the multiplier. -/
theorem fieldElem_gfMulLoop (n : Nat) (a b : Byte) :
    fieldElem (gfMulLoop n 0 a b) = fieldElem a * AdjoinRoot.mk rijndaelPoly (bitsPoly n b) := by
  induction n generalizing a b with
  | zero => rw [gfMulLoop, bitsPoly, map_zero, mul_zero, fieldElem_zero]
  | succ n ih =>
    rw [gfMulLoop_succ, fieldElem_xor, ih, fieldElem_xtime, bitsPoly, RingHom.map_add, RingHom.map_mul,
      AdjoinRoot.mk_X, mul_add, mul_comm (AdjoinRoot.root rijndaelPoly) (fieldElem a), mul_assoc]
    congr 1
    split
    next => rw [map_one, mul_one]
    next => rw [map_zero, mul_zero, fieldElem_zero]

/-- Settles O44: the embedding is the polynomial of the byte's bits, and the loop multiplies by the shift step. -/
theorem gfMulIsTheFieldProduct : Obligations.GfMulIsTheFieldProduct := by
  unfold Obligations.GfMulIsTheFieldProduct
  refine ⟨fieldElem, fieldElem_injective, ?_, ?_, fieldElem_xor, fun a b => fieldElem_gfMulLoop 8 a b⟩
  · exact (fieldElem_twoPow 0).trans (pow_zero _)
  · exact (fieldElem_twoPow 1).trans (pow_one _)

end Sys2Proof.Machine
end
